-- ==== Sys2Proof/Word.lean ====
section
/-! DEFINITION. The machine's words: bytes, 32-bit and 64-bit words, and the eight-word measurement state. -/

namespace Sys2Proof

/-- The smallest addressable unit (spec/20_memory.md R30). -/
abbrev Byte := BitVec 8

/-- A 32-bit word: EAX, the DS base and limit, a word of the measurement. -/
abbrev Dword := BitVec 32

/-- A 64-bit word: a general register, an address, an 8-byte field. -/
abbrev Qword := BitVec 64

/-- The chaining state of SHA256UPDATE, the eight words H0 to H7 (spec/40_encls_eadd.md R92): the value of MRENCLAVE. -/
structure Digest where
  h0 : Dword
  h1 : Dword
  h2 : Dword
  h3 : Dword
  h4 : Dword
  h5 : Dword
  h6 : Dword
  h7 : Dword
  deriving DecidableEq, Repr, Inhabited

end Sys2Proof
end

