-- ==== Sys2Proof/Config.lean ====
section
/-! DEFINITION. What an implementation fixes (the configuration record of spec/00_scope.md R6, as plain data) and the
free values of the model (constants with no body). -/

namespace Sys2Proof

/-- A field of a structure in memory: byte offset and size in bytes. -/
structure Field where
  off : Nat
  size : Nat
  deriving DecidableEq, Repr

/-- Offsets of the four named fields of PAGEINFO, each 8 bytes (spec/20_memory.md R40). -/
structure PageInfoLayout where
  linaddr : Nat
  srcpge : Nat
  secinfo : Nat
  secs : Nat
  deriving DecidableEq, Repr

/-- Bit positions in the 512-bit SECINFO and the mask of its reserved fields (spec/20_memory.md R42). -/
structure SecInfoLayout where
  r : Nat
  w : Nat
  x : Nat
  ptHi : Nat
  ptLo : Nat
  reservedMask : BitVec 512
  deriving DecidableEq, Repr

/-- The page-type codes (spec/20_memory.md R43). -/
structure PageTypes where
  secs : Nat
  tcs : Nat
  reg : Nat
  deriving DecidableEq, Repr

/-- A run of bytes of a page and the bits of each of them that a mask covers. -/
structure ByteMask where
  off : Nat
  len : Nat
  bits : Byte
  deriving DecidableEq, Repr

/-- Places of the TCS fields the leaf names, and TCS_RESERVED_MASK as a list of runs (spec/20_memory.md R45). -/
structure TcsLayout where
  state : Field
  flags : Field
  /-- The bit of FLAGS that is DBGOPTIN. -/
  dbgoptin : Nat
  cssa : Field
  aep : Field
  fslimit : Field
  gslimit : Field
  reserved : List ByteMask
  deriving DecidableEq, Repr

/-- Which function SHA256UPDATE is (spec/40_encls_eadd.md R92): the recommended FIPS 180-4 compression function, or some
other function of its two arguments, left uninterpreted (`Config.sha256Other`). -/
inductive ShaChoice where
  | fips180
  | other (n : Nat)
  deriving DecidableEq, Repr

/-- The type of a SECS identifier (R6, log 37). -/
abbrev SecsId := Qword

/-- What the identifier of a SECS is: the physical address of its page, the default of R6, or a value the SECS record holds. -/
inductive SecsIdChoice where
  | pageAddress
  | stored
  deriving DecidableEq, Repr

/-- The configuration record of R6, fixed for a run. `MODE` is `State.mode`; `Resolve` is data of the step's input. -/
structure Cfg where
  /-- `ILEN`, the length of the instruction in bytes. -/
  ilen : Nat
  /-- The byte string of the instruction (spec/30_encoding.md R61, D37). -/
  enclsBytes : List Byte
  /-- `SGX1_SUPPORTED`. -/
  sgx1Supported : Bool
  /-- `EPC`: the physical addresses of the pages that are within an EPC. -/
  epc : List Qword
  /-- Width of a canonical linear address (spec/20_memory.md R32). -/
  linWidth : Nat
  pageInfo : PageInfoLayout
  secInfo : SecInfoLayout
  pageTypes : PageTypes
  tcs : TcsLayout
  /-- The choice of `SHA256UPDATE`. -/
  sha : ShaChoice
  /-- The choice of `SecsId`. -/
  secsId : SecsIdChoice
  /-- `COUNTER_MAX`: the bound of the MRENCLAVE update counter, if any. -/
  counterMax : Option Nat
  deriving DecidableEq, Repr

/-- SECINFO's reserved bits at the default layout: 7:6, 63:16 and 511:64 (R42). -/
def SecInfoLayout.defaultMask : BitVec 512 :=
  ~~~(0xFF3F#512)

/-- The default layout of SECINFO (R42). -/
def SecInfoLayout.default : SecInfoLayout where
  r := 0
  w := 1
  x := 2
  ptHi := 15
  ptLo := 8
  reservedMask := defaultMask

/-- The width of the PT field, in SECINFO and in an EPCM entry (spec/10_state.md R20). -/
def SecInfoLayout.ptWidth (l : SecInfoLayout) : Nat :=
  l.ptHi - l.ptLo + 1

/-- The "default" column of R6 (general knowledge GK2, GK6 to GK11); `EPC` has none there and is left empty (log 4, 27). -/
def Cfg.default : Cfg where
  ilen := 3
  enclsBytes := [0x0F#8, 0x01#8, 0xCF#8]
  sgx1Supported := true
  epc := []
  linWidth := 48
  pageInfo := { linaddr := 0, srcpge := 8, secinfo := 16, secs := 24 }
  secInfo := .default
  pageTypes := { secs := 0, tcs := 1, reg := 2 }
  tcs :=
    { state := ⟨0, 8⟩, flags := ⟨8, 8⟩, dbgoptin := 0, cssa := ⟨24, 4⟩, aep := ⟨40, 8⟩
      fslimit := ⟨64, 4⟩, gslimit := ⟨68, 4⟩, reserved := [⟨72, 4024, 0xFF#8⟩] }
  sha := .fips180
  secsId := .pageAddress
  counterMax := none

namespace Config

/-- FREE VALUE (log 8): the page-fault error code of the n-th draw; the source names no bit of it (spec/60_exceptions.md R101). -/
opaque pfErrorCode : Nat → Dword

/-- FREE VALUE (log 9): byte k of the target EPC page after a fault at checks 13 to 17, at the n-th draw
(spec/40_encls_eadd.md R94). -/
opaque freePageByte : Nat → Nat → Byte

/-- FREE VALUE (log 10): whether, at the n-th draw, the leaf's own exclusive hold on the target page makes the same page
"not available" as the SECS (spec/20_memory.md R59). -/
opaque ownHoldBlocksSecs : Nat → Bool

/-- FREE VALUE (log 11): SHA256UPDATE where the configuration does not choose the FIPS 180-4 function
(spec/40_encls_eadd.md R92). -/
opaque sha256Other : Nat → Digest → BitVec 512 → Digest

end Config

end Sys2Proof
end

