-- ==== Sys2Proof/Machine/State.lean ====
section
/-! DEFINITION. The machine's state (spec/10_state.md R10), the reasons a step can stop, and the state after reset.
Everything here is plain data. -/

namespace Sys2Proof.Machine

/-! ## Processor state -/

/-- The operating mode (spec/10_state.md R16). -/
inductive Mode where
  | mode64
  | mode32
  deriving DecidableEq, Repr

/-- The DS segment, used in `Mode32` only (R16). -/
structure Segment where
  base : Dword
  limit : Dword
  deriving DecidableEq, Repr

/-- The general registers (R11, R12). -/
structure Regs where
  rax : Qword
  rcx : Qword
  rdx : Qword
  rbx : Qword
  rsp : Qword
  rbp : Qword
  rsi : Qword
  rdi : Qword
  r8 : Qword
  r9 : Qword
  r10 : Qword
  r11 : Qword
  r12 : Qword
  r13 : Qword
  r14 : Qword
  r15 : Qword
  deriving DecidableEq, Repr

/-- The names of the general registers, for the harness step `SET reg, value` (spec/70_reset_and_hazards.md R128). -/
inductive Reg where
  | rax | rcx | rdx | rbx | rsp | rbp | rsi | rdi | r8 | r9 | r10 | r11 | r12 | r13 | r14 | r15
  deriving DecidableEq, Repr

/-- `VMCS.Exit_reason`: SGX_CONFLICT is symbolic, its number is not in the source (R18, log 2). -/
inductive ExitReason where
  | sgxConflict
  | other (n : Nat)
  deriving DecidableEq, Repr

/-- `VMCS.Exit_qualification.code`: EPC_PAGE_CONFLICT_EXCEPTION is symbolic as well (R18, log 2). -/
inductive ExitCode where
  | epcPageConflictException
  | other (n : Nat)
  deriving DecidableEq, Repr

/-- The five VMCS fields the leaf can write (R18). -/
structure Vmcs where
  exitReason : ExitReason
  exitQualificationCode : ExitCode
  exitQualificationError : Nat
  guestPhysicalAddress : Qword
  guestLinearAddress : Qword
  deriving DecidableEq, Repr

/-! ## The EPC's metadata -/

/-- An EPCM entry (R20). -/
structure EpcmEntry where
  valid : Bool
  /-- As wide as SECINFO.FLAGS.PT: that wide in every state of `Safety.PtFits`, which every step keeps (R20, log 45). -/
  pt : Nat
  r : Bool
  w : Bool
  x : Bool
  enclaveAddress : Qword
  /-- The SECS identifier (the spec's name: ENCLAVESECS). -/
  enclaveSecs : SecsId
  blocked : Bool
  pending : Bool
  modified : Bool
  /-- Whatever further fields an implementation's entry holds, uninterpreted; the leaf leaves them alone (R21, log 33). -/
  further : Nat
  deriving DecidableEq, Repr

/-- The entry of an EPC page that nothing has been added to: VALID = 0 (R28, log 14). -/
def EpcmEntry.empty : EpcmEntry where
  valid := false
  pt := 0
  r := false
  w := false
  x := false
  enclaveAddress := 0
  enclaveSecs := 0
  blocked := false
  pending := false
  modified := false
  further := 0

/-- The SECS record of an enclave (R22 to R24). -/
structure Secs where
  baseAddr : Qword
  size : Qword
  /-- `ATTRIBUTES.MODE64BIT`. -/
  mode64bit : Bool
  mrenclave : Digest
  /-- What an EPCM entry stores to reference this SECS, where the configuration does not take the page's address for it (log
  37): read by `State.secsIdentifier` only. -/
  identifier : SecsId
  /-- Whether the enclave is initialized (R24). -/
  init : Bool
  /-- The MRENCLAVE update counter (R23). -/
  mrcount : Nat
  deriving DecidableEq, Repr

/-! ## The parameters of a step -/

/-- An access kind of `Resolve` (spec/20_memory.md R34). -/
inductive Access where
  | rd
  | wr
  deriving DecidableEq, Repr

/-- One piece of `Resolve` (R34, log 5): for accesses of kind `acc`, the linear page `page + i`, `i < pages`, translates to
the physical page `frame + i`. -/
structure MapRegion where
  acc : Access
  page : Nat
  pages : Nat
  frame : Nat
  deriving DecidableEq, Repr

/-- The access kinds of Tables 40-8 and 40-9 (R50). -/
inductive AccessKind where
  | exclusive
  | shared
  | concurrent
  deriving DecidableEq, Repr

/-- The leaf functions Table 40-9 names, and any other (R52). -/
inductive LeafName where
  | eaccept | eacceptcopy | emodpe | emodpr | emodt | eadd | eextend | einit | etrack | etrackc
  | other
  deriving DecidableEq, Repr

/-- A leaf in progress on another logical processor during a step (R50, R53). -/
structure OtherLeaf where
  leaf : LeafName
  /-- The EPC pages it holds, by physical address, and how. -/
  holds : List (Qword × AccessKind)
  /-- The SECS page it works on, if any. -/
  secs : Option Qword
  /-- Whether it is updating that SECS's MRENCLAVE. -/
  updatingMeasure : Bool
  deriving DecidableEq, Repr

/-- The parameters of one step that are not architectural state (R25, R29; log 6). -/
structure StepInput where
  /-- `Resolve`, as a list of regions; the first that covers an access decides (R34). -/
  paging : List MapRegion
  /-- The leaves other logical processors are executing (R53). -/
  others : List OtherLeaf
  busyTarget : Bool
  busySecs : Bool
  busyMeasure : Bool
  /-- The harness's register loads before the step, in order; done when the input comes into force (R128). -/
  loads : List (Reg × Qword)
  deriving DecidableEq, Repr

/-! ## Memory -/

/-- Keys strictly rising: the canonical order of every list of the state that is looked up by a key. -/
def keysRising {α : Type} : List (Nat × α) → Bool
  | [] => true
  | [_] => true
  | a :: b :: rest => a.1 < b.1 && keysRising (b :: rest)

/-- Physical memory, listed bytes only (R26, R19; log 31). -/
abbrev Memory := List Host.Cell

/-- What a byte of memory that nothing has written reads as (log 12). -/
def Memory.unlisted : Byte := 0

/-- The canonical form of memory: addresses strictly rising, no entry equal to what an unlisted address reads as. -/
def Memory.wf (m : Memory) : Bool :=
  keysRising m && m.all fun c => c.2 != Memory.unlisted

/-! ## The state -/

/-- The state of the machine (R10). -/
structure State where
  regs : Regs
  /-- The instruction pointer RIP (R13). -/
  rip : Qword
  /-- The flags register (R14). -/
  rflags : Qword
  /-- The current privilege level (R15). -/
  cpl : Fin 4
  mode : Mode
  ds : Segment
  /-- The logical processor is in VMX non-root operation (R17). -/
  vmxNonRoot : Bool
  /-- ENABLE_EPC_VIRTUALIZATION_EXTENSIONS (R17). -/
  epcVirtExt : Bool
  vmcs : Vmcs
  /-- Physical memory, the content of the EPC pages included (R19, R26). -/
  mem : Memory
  /-- EPCM entries by physical page address; an unlisted page has `EpcmEntry.empty` (R20). -/
  epcm : List (Nat × EpcmEntry)
  /-- SECS records by physical address of their EPC page (R22). -/
  secs : List (Nat × Secs)
  /-- The configuration of the run (spec/00_scope.md R6); no step changes it. -/
  cfg : Cfg
  /-- The parameters of the next step. -/
  input : StepInput
  /-- The parameters of the steps after it, in order (the model's own field, log 6). -/
  upcoming : List StepInput
  /-- The program text by instruction-pointer value (R29, R57; log 16); an unlisted address holds no byte. -/
  text : List Host.Cell
  /-- How many free values have been drawn (the model's own field, log 8). -/
  draws : Nat
  deriving DecidableEq, Repr

/-! ## Stops -/

/-- The exceptions the leaf raises (spec/60_exceptions.md R100 to R102). -/
inductive Exception where
  /-- `#GP(0)`. -/
  | generalProtection
  /-- `#PF` for a linear address. -/
  | pageFault (lin : Qword)
  /-- `#UD`. -/
  | invalidOpcode
  deriving DecidableEq, Repr

/-- The terminal outcomes of a step that the spec gives the leaf (R108, D33). Each carries `state`, the architectural state
at the outcome as spec/40_encls_eadd.md R94 gives it (log 1). -/
inductive Fault where
  /-- `Fault(#GP, 0)` (R100): raised by checks 1, 2, 5, 8, 9, 11 and 14 to 17. Safe: the outcome the spec gives. -/
  | gp (errorCode : Nat) (state : State)
  /-- `Fault(#PF, address, error code)` (R101): raised by checks 3, 4, 6, 7, 10, 12 and 13. Safe: the error code is a free
  value. Unsafe only in the low bits of the address for PAGEINFO and SECINFO (log 38). -/
  | pf (address : Qword) (errorCode : Dword) (state : State)
  /-- `Fault(#UD)` (R102): raised at CPL other than 0. Unsafe if the chip raises another exception there (log 3). -/
  | ud (state : State)
  /-- `VMExit` with its five values (R103): delivered by check 9. Safe: the outcome the spec gives. -/
  | vmExit (info : Vmcs) (state : State)
  deriving DecidableEq, Repr

/-- Why the model gives a situation no meaning. All are safe: the model stops where the chip may go on. -/
inductive Refusal where
  /-- Raised by `exec` for an instruction that has no meaning in the model; none is left. -/
  | notModelled (mnemonic : String)
  /-- Raised by the fetch: the bytes at RIP are not exactly ENCLS (spec/30_encoding.md R65). -/
  | notEncls
  /-- Raised by ENCLS: the processor has no SGX1 (spec/40_encls_eadd.md R71). -/
  | sgxUnsupported
  /-- Raised by ENCLS: EAX is not 1 (spec/30_encoding.md R64). -/
  | leafNotEadd
  /-- Raised by ENCLS: in `Mode32`, RBX, RCX or a pointer field of PAGEINFO has a nonzero upper half (spec/20_memory.md R31). -/
  | mode32UpperBits
  /-- Raised by ENCLS: PAGEINFO, SECINFO or the source page resolves inside the EPC (spec/20_memory.md R44). -/
  | nonEnclaveOperandInEpc
  /-- Raised by ENCLS: one of bits 5:3 of SECINFO is set, at the default layout (spec/20_memory.md R42). -/
  | secinfoBits5to3
  /-- Raised by ENCLS: a bit of TCS.FLAGS other than DBGOPTIN is set in the source page (spec/20_memory.md R45). -/
  | tcsFlagsReservedBits
  /-- Raised by ENCLS: BASEADDR + SIZE of the SECS reaches 2^64 (spec/40_encls_eadd.md R85). -/
  | secsRangeOverflow
  /-- Raised by ENCLS: the update counter stands at its bound (spec/10_state.md R23). -/
  | counterOverflow
  /-- Raised by ENCLS: a valid PT_SECS entry has no SECS record, against the launch premise of spec/10_state.md R28 (log 25). -/
  | secsRecordAbsent
  deriving DecidableEq, Repr

/-- How a check of the leaf ends the execution. -/
inductive Stop where
  | fault (f : Fault)
  | refused (r : Refusal)
  deriving DecidableEq, Repr

/-- A check of the leaf: a result, or the end of the execution. -/
abbrev Check (α : Type) := Except Stop α

/-! ## Reset -/

/-- `Resolve` at reset: the identity, readable and writable (log 5). -/
def identityPaging : List MapRegion :=
  [⟨.rd, 0, 2 ^ 52, 0⟩, ⟨.wr, 0, 2 ^ 52, 0⟩]

/-- The input of a step of a single agent: no other leaf in progress, nothing busy (spec/20_memory.md R54). -/
def StepInput.singleAgent : StepInput where
  paging := identityPaging
  others := []
  busyTarget := false
  busySecs := false
  busyMeasure := false
  loads := []

/-- The registers at reset (log 13). -/
def Regs.reset : Regs where
  rax := 0
  rcx := 0
  rdx := 0x600
  rbx := 0
  rsp := 0
  rbp := 0
  rsi := 0
  rdi := 0
  r8 := 0
  r9 := 0
  r10 := 0
  r11 := 0
  r12 := 0
  r13 := 0
  r14 := 0
  r15 := 0

/-- The VMCS exit fields at reset (log 14). -/
def Vmcs.reset : Vmcs where
  exitReason := .other 0
  exitQualificationCode := .other 0
  exitQualificationError := 0
  guestPhysicalAddress := 0
  guestLinearAddress := 0

/-- The state after reset. The source gives no reset value (spec/10_state.md R28, spec/70_reset_and_hazards.md R120); every
value is named in INVENTORY.md and in the log (4 to 6, 12 to 16). -/
def State.reset : State where
  regs := .reset
  rip := 0xFFF0
  rflags := 2
  cpl := 0
  mode := .mode32
  ds := { base := 0, limit := 0xFFFF }
  vmxNonRoot := false
  epcVirtExt := false
  vmcs := .reset
  mem := []
  epcm := []
  secs := []
  cfg := .default
  input := .singleAgent
  upcoming := []
  text := []
  draws := 0

end Sys2Proof.Machine
end

