-- ==== Sys2Proof/Machine/Ops.lean ====
section
/-! DEFINITION. The named operations over the state: keyed lists, memory and byte order, EPCM and SECS, the instruction
pointer, free values, and raising an exception. -/

namespace Sys2Proof.Machine

/-! ## Keyed lists in canonical order -/

/-- The first value listed under a key. -/
def find? {α : Type} : List (Nat × α) → Nat → Option α
  | [], _ => none
  | c :: rest, k => if c.1 = k then some c.2 else find? rest k

/-- `cells` in place of everything listed under the keys `lo` to `lo + n - 1`. -/
def splice {α : Type} (m : List (Nat × α)) (lo n : Nat) (cells : List (Nat × α)) : List (Nat × α) :=
  m.filter (fun c => c.1 < lo) ++ (cells ++ m.filter (fun c => lo + n ≤ c.1))

/-- `v` under the key `k`. -/
def put {α : Type} (m : List (Nat × α)) (k : Nat) (v : α) : List (Nat × α) :=
  splice m k 1 [(k, v)]

/-- Nothing under the key `k`. -/
def remove {α : Type} (m : List (Nat × α)) (k : Nat) : List (Nat × α) :=
  splice m k 1 []

/-! ## Memory and byte order (spec/20_memory.md R30, R35 to R37) -/

namespace Memory

/-- The byte at an address. -/
def byte (m : Memory) (a : Nat) : Byte :=
  (find? m a).getD unlisted

/-- The canonical cells of consecutive bytes from `a` on. -/
def cells (a : Nat) : List Byte → List Host.Cell
  | [] => []
  | b :: bs => if b = unlisted then cells (a + 1) bs else (a, b) :: cells (a + 1) bs

/-- `n` consecutive bytes from `a` on, the lowest address first. -/
def readBytes (m : Memory) (a : Nat) : Nat → List Byte
  | 0 => []
  | n + 1 => byte m a :: readBytes m (a + 1) n

/-- Consecutive bytes stored from `a` on. -/
def writeBytes (m : Memory) (a : Nat) (bs : List Byte) : Memory :=
  splice m a bs.length (cells a bs)

end Memory

/-- The unsigned value of bytes, the least significant first (R37). -/
def leNat : List Byte → Nat
  | [] => 0
  | b :: bs => b.toNat + 256 * leNat bs

/-- The low `n` bytes of a value, the least significant first (R37). -/
def leBytes : (n v : Nat) → List Byte
  | 0, _ => []
  | n + 1, v => BitVec.ofNat 8 v :: leBytes n (v / 256)

namespace Memory

/-- The value that `Phys[pa + k]`, k = 0..n-1, make (R35). -/
def readNat (m : Memory) (a n : Nat) : Nat :=
  leNat (readBytes m a n)

/-- `Phys[a + k] <- v[8k+7:8k]`, k = 0..n-1 (R35). -/
def writeNat (m : Memory) (a n v : Nat) : Memory :=
  writeBytes m a (leBytes n v)

/-- The 4096 bytes from `pa` on, as a memory of their own with addresses 0 to 4095. -/
def page (m : Memory) (pa : Nat) : Memory :=
  (m.filter fun c => pa ≤ c.1 && c.1 < pa + 4096).map fun c => (c.1 - pa, c.2)

/-- A page image stored at `pa`: all 4096 bytes. -/
def putPage (m : Memory) (pa : Nat) (p : Memory) : Memory :=
  splice m pa 4096 (p.map fun c => (pa + c.1, c.2))

/-- A page of free bytes (R94, log 9). -/
def freePage (n : Nat) : Memory :=
  cells 0 ((List.range 4096).map (Config.freePageByte n))

end Memory

/-! ## The EPC's metadata (spec/10_state.md R19 to R22) -/

/-- The base of the page an address lies in. -/
def pageBase (a : Qword) : Qword :=
  a &&& ~~~0xFFF#64

/-- `InEPC(pa)` (R19). -/
def inEpc (c : Cfg) (pa : Qword) : Bool :=
  c.epc.contains (pageBase pa)

namespace State

/-- `EPCM[pa]` (R20). -/
def epcmEntry (s : State) (pa : Qword) : EpcmEntry :=
  (find? s.epcm pa.toNat).getD .empty

/-- `EPCM[pa] <- e`, in canonical form: the empty entry is not listed. -/
def setEpcm (s : State) (pa : Qword) (e : EpcmEntry) : State :=
  { s with epcm := if e = .empty then remove s.epcm pa.toNat else put s.epcm pa.toNat e }

/-- `SECS[pa]`, if there is a record (R22). -/
def secsRecord? (s : State) (pa : Qword) : Option Secs :=
  find? s.secs pa.toNat

/-- `SECS[pa] <- r`. -/
def setSecs (s : State) (pa : Qword) (r : Secs) : State :=
  { s with secs := put s.secs pa.toNat r }

/-- The identifier of the SECS `r` in the page at `pa`: by default the physical address of the page (R20, R22,
spec/00_scope.md R6). -/
def secsIdentifier (s : State) (pa : Qword) (r : Secs) : SecsId :=
  match s.cfg.secsId with
  | .pageAddress => pa
  | .stored => r.identifier

/-- Memory replaced. -/
def setMem (s : State) (m : Memory) : State :=
  { s with mem := m }

/-! ## The instruction pointer (R13) -/

/-- RIP plus `n`, modulo 2^64 in `Mode64` and modulo 2^32 in `Mode32`. -/
def ripPlus (s : State) (n : Nat) : Qword :=
  match s.mode with
  | .mode64 => s.rip + BitVec.ofNat 64 n
  | .mode32 => (s.rip.setWidth 32 + BitVec.ofNat 32 n).setWidth 64

/-- `pc <- RIP + ILEN`. -/
def advanceRip (s : State) : State :=
  { s with rip := s.ripPlus s.cfg.ilen }

/-- EAX, the low half of RAX (R11). -/
def eax (s : State) : Dword :=
  s.regs.rax.setWidth 32

/-! ## Free values and exceptions -/

/-- The state after a free value has been drawn. -/
def drawn (s : State) : State :=
  { s with draws := s.draws + 1 }

/-- The state with the target EPC page's content unspecified, nothing else changed (spec/40_encls_eadd.md R94). -/
def spoilPage (s : State) (pa : Qword) : State :=
  (s.setMem (s.mem.putPage pa.toNat (Memory.freePage s.draws))).drawn

end State

/-- RAISING AN EXCEPTION (spec/60_exceptions.md R100 to R102, R105, R108), the one operation for all of them: the outcome is
terminal and carries the vector, the error code and the address where the spec names them, and the state `s` at the outcome,
in which RIP still points at the instruction. The page-fault error code is a free value. There is no return from an exception:
the spec has none (R109); executing again is executing from the first check. -/
def raise (e : Exception) (s : State) : Fault :=
  match e with
  | .generalProtection => .gp 0 s
  | .pageFault lin => .pf lin (Config.pfErrorCode s.draws) s.drawn
  | .invalidOpcode => .ud s

/-- Delivering the VM exit (R103): the five VMCS fields are written, and the outcome carries their values. -/
def vmExit (v : Vmcs) (s : State) : Fault :=
  .vmExit v { s with vmcs := v }

/-- A check that raises an exception. -/
def Check.raise {α : Type} (e : Exception) (s : State) : Check α :=
  .error (.fault (Machine.raise e s))

/-- A check that refuses. -/
def Check.refuse {α : Type} (r : Refusal) : Check α :=
  .error (.refused r)

/-- A check that raises `e` in state `s` unless `c`. -/
def Check.require (c : Bool) (e : Exception) (s : State) : Check Unit :=
  if c then .ok () else Check.raise e s

/-- A check that refuses unless `c`. -/
def Check.allow (c : Bool) (r : Refusal) : Check Unit :=
  if c then .ok () else Check.refuse r

/-- The outcome of an execution: its new state, or how it stopped. -/
def Check.outcome : Check State → Host.Outcome State Fault Refusal
  | .ok s => .next s
  | .error (.fault f) => .fault f
  | .error (.refused r) => .refused r

end Sys2Proof.Machine
end

