-- ==== Sys2Proof/Machine/Concurrency.lean ====
section
/-! DEFINITION. The concurrency restrictions of EADD: Tables 40-8 and 40-9 and the three availability conditions
(spec/20_memory.md R50 to R54, R59). -/

namespace Sys2Proof.Machine

/-- Two accesses to one page that cannot coexist: Exclusive with Shared or Exclusive; Concurrent restricts nothing (R50). -/
def AccessKind.conflicts : AccessKind → AccessKind → Bool
  | .exclusive, .exclusive => true
  | .exclusive, .shared => true
  | .shared, .exclusive => true
  | .shared, .shared => false
  | .concurrent, _ => false
  | _, .concurrent => false

/-- Table 40-8, parameter Target (R51). -/
def baseAccessTarget : AccessKind := .exclusive

/-- Table 40-8, parameter SECS (R51). -/
def baseAccessSecs : AccessKind := .shared

/-- Table 40-9, parameter Target, by the other leaf (R52). -/
def additionalAccessTarget : LeafName → AccessKind
  | _ => .concurrent

/-- Table 40-9, parameter SECS, by the other leaf (R52). A leaf outside the table gets no additional restriction. -/
def additionalAccessSecs : LeafName → AccessKind
  | .eaccept => .concurrent
  | .eacceptcopy => .concurrent
  | .emodpe => .concurrent
  | .emodpr => .concurrent
  | .emodt => .concurrent
  | .eadd => .exclusive
  | .eextend => .exclusive
  | .einit => .exclusive
  | .etrack => .concurrent
  | .etrackc => .concurrent
  | .other => .concurrent

/-- The leaves that update MRENCLAVE, by the column head of Table 40-9 (R53). -/
def LeafName.updatesMeasurement : LeafName → Bool
  | .eadd => true
  | .eextend => true
  | .einit => true
  | _ => false

/-- The other leaf holds the page at `pa` in a way that conflicts with an access of kind `k`. -/
def OtherLeaf.holdsAgainst (o : OtherLeaf) (pa : Qword) (k : AccessKind) : Bool :=
  o.holds.any fun h => h.1 == pa && k.conflicts h.2

/-- The other leaf may make the target page unavailable (R53, `BUSY_TARGET`). -/
def OtherLeaf.blocksTarget (o : OtherLeaf) (pa : Qword) : Bool :=
  o.holdsAgainst pa baseAccessTarget || (additionalAccessTarget o.leaf == .exclusive && o.secs == some pa)

/-- The other leaf may make the SECS unavailable (R53, `BUSY_SECS`): it holds the SECS page exclusively, or it is EADD,
EEXTEND or EINIT on the same SECS. -/
def OtherLeaf.blocksSecs (o : OtherLeaf) (pa : Qword) : Bool :=
  o.holdsAgainst pa baseAccessSecs || (additionalAccessSecs o.leaf == .exclusive && o.secs == some pa)

/-- The other leaf may hold the measurement of the SECS (R53, `BUSY_MEASURE`). -/
def OtherLeaf.blocksMeasure (o : OtherLeaf) (pa : Qword) : Bool :=
  o.updatingMeasure && o.leaf.updatesMeasurement && o.secs == some pa

/-- "EPC page is not available for EADD": the input says so and some leaf in progress allows it (R53). -/
def targetBusy (i : StepInput) (paTgt : Qword) : Bool :=
  i.busyTarget && i.others.any fun o => o.blocksTarget paTgt

/-- "SECS is not available for EADD", as far as other logical processors make it so (R53). -/
def secsBusy (i : StepInput) (paSecs : Qword) : Bool :=
  i.busySecs && i.others.any fun o => o.blocksSecs paSecs

/-- "Measurement being updated" (R53). -/
def measureBusy (i : StepInput) (paSecs : Qword) : Bool :=
  i.busyMeasure && i.others.any fun o => o.blocksMeasure paSecs

/-- The leaf's own hold on the target page makes the same page unavailable as the SECS: either way where target and SECS
are one page (R59, log 10). -/
def ownHoldBusy (s : State) (paTgt paSecs : Qword) : Bool :=
  paTgt == paSecs && Config.ownHoldBlocksSecs s.draws

end Sys2Proof.Machine
end

