-- ==== Sys2Proof/Machine/Flags.lean ====
section
/-! DEFINITION. The flags register: the leaf affects no flag (spec/10_state.md R14). -/

namespace Sys2Proof.Machine

/-- The flags register after ENCLS[EADD]: "Flags Affected: None" (R14). -/
def flagsAfterEadd (rflags : Qword) : Qword :=
  rflags

end Sys2Proof.Machine
end

