-- ==== Sys2Proof/Machine/Operands.lean ====
section
/-! DEFINITION. The operand forms of the leaf: effective, linear and physical addresses, and the structures PAGEINFO,
SECINFO and TCS (spec/20_memory.md R30 to R45, spec/40_encls_eadd.md R98). -/

namespace Sys2Proof.Machine

/-! ## Addresses -/

/-- Whether the upper half that `Mode32` does not use is zero, in the mode that has one (R31). -/
def upperHalfClear (m : Mode) (v : Qword) : Bool :=
  match m with
  | .mode64 => true
  | .mode32 => v >>> 32 == 0

/-- Canonical form: bits 63 down to `width - 1` are all equal (R32). -/
def canonical (width : Nat) (ea : Qword) : Bool :=
  ea.sshiftRight (width - 1) == 0 || ea.sshiftRight (width - 1) == BitVec.allOnes 64

/-- `Lin(ea, n)` (R32): the canonical check in `Mode64`, the DS limit check on the last byte in `Mode32`. -/
def linear (s : State) (ea : Qword) (n : Nat) : Check Qword :=
  match s.mode with
  | .mode64 => if canonical s.cfg.linWidth ea then .ok ea else Check.raise .generalProtection s
  | .mode32 =>
    if (ea.setWidth 32).toNat + n - 1 ≤ s.ds.limit.toNat then .ok ((s.ds.base + ea.setWidth 32).setWidth 64)
    else Check.raise .generalProtection s

/-- The linear address of an n-byte operand, with the alignment check made on it (R33, R38). -/
def alignedLinear (s : State) (ea : Qword) (n align : Nat) : Check Qword := do
  let la ← linear s ea n
  Check.require (la.toNat % align == 0) .generalProtection s
  return la

/-- The region covers an access of kind `acc` to the linear page. -/
def MapRegion.covers (r : MapRegion) (acc : Access) (page : Nat) : Bool :=
  r.acc == acc && r.page ≤ page && page < r.page + r.pages

/-- `Resolve(lin, acc)` (R34): the physical address, its low 12 bits those of `lin`, or none for `pf`. -/
def resolve (i : StepInput) (lin : Qword) (acc : Access) : Option Qword :=
  let page := lin.toNat / 4096
  match i.paging.find? fun r => r.covers acc page with
  | some r => some (BitVec.ofNat 64 ((r.frame + (page - r.page)) % 2 ^ 52 * 4096 + lin.toNat % 4096))
  | none => none

/-- `ResolveEPC(lin, wr)` (R36): the enclave operands need write access (R44) and a page of the EPC. -/
def resolveEpc (s : State) (lin : Qword) : Check Qword :=
  match resolve s.input lin .wr with
  | none => Check.raise (.pageFault lin) s
  | some pa => if inEpc s.cfg pa then .ok pa else Check.raise (.pageFault lin) s

/-- The physical address of a non-enclave operand, read with ordinary read access (R35, R44); inside the EPC the spec gives it
no meaning. `atFault` is the state at a page fault of this access. -/
def resolveOutside (s : State) (lin : Qword) (atFault : State) : Check Qword :=
  match resolve s.input lin .rd with
  | none => Check.raise (.pageFault lin) atFault
  | some pa => if inEpc s.cfg pa then Check.refuse .nonEnclaveOperandInEpc else .ok pa

/-! ## PAGEINFO (R40, R41) -/

/-- The temporaries read from PAGEINFO (spec/10_state.md R27). -/
structure PageInfo where
  linaddr : Qword
  srcpge : Qword
  secinfo : Qword
  secs : Qword
  deriving DecidableEq, Repr

/-- PAGEINFO at a physical address: four 8-byte little-endian fields. -/
def readPageInfo (s : State) (pa : Qword) : PageInfo where
  linaddr := BitVec.ofNat 64 (s.mem.readNat (pa.toNat + s.cfg.pageInfo.linaddr) 8)
  srcpge := BitVec.ofNat 64 (s.mem.readNat (pa.toNat + s.cfg.pageInfo.srcpge) 8)
  secinfo := BitVec.ofNat 64 (s.mem.readNat (pa.toNat + s.cfg.pageInfo.secinfo) 8)
  secs := BitVec.ofNat 64 (s.mem.readNat (pa.toNat + s.cfg.pageInfo.secs) 8)

/-! ## SECINFO (R42, R43) -/

/-- SCRATCH_SECINFO: the 64 bytes at a physical address. -/
def readSecInfo (s : State) (pa : Qword) : BitVec 512 :=
  BitVec.ofNat 512 (s.mem.readNat pa.toNat 64)

/-- SECINFO.FLAGS.PT. -/
def secInfoPt (l : SecInfoLayout) (si : BitVec 512) : Nat :=
  (si.extractLsb' l.ptLo l.ptWidth).toNat

/-- One bit of a 512-bit value. -/
def bit512 (k : Nat) : BitVec 512 :=
  1#512 <<< k

/-- FLAGS.R, FLAGS.W and FLAGS.X. -/
def secInfoRwx (l : SecInfoLayout) : BitVec 512 :=
  bit512 l.r ||| bit512 l.w ||| bit512 l.x

/-- The bits whose treatment by EADD the source leaves open: 5:3 at the default layout (R42). Any other layout says with its
mask which bits are reserved, and leaves none open (log 20). -/
def secInfoOpen (l : SecInfoLayout) : BitVec 512 :=
  if l = .default then 0x38 else 0

/-- SECINFO with FLAGS.R, FLAGS.W and FLAGS.X cleared (spec/40_encls_eadd.md R88). -/
def clearRwx (l : SecInfoLayout) (si : BitVec 512) : BitVec 512 :=
  si &&& ~~~secInfoRwx l

/-! ## TCS (R45) -/

/-- Whether every bit of the page under the mask is zero. A byte that is not listed is zero. -/
def maskClear (p : Memory) (mask : List ByteMask) : Bool :=
  p.all fun c => mask.all fun r => !(r.off ≤ c.1 && c.1 < r.off + r.len) || Memory.byte p c.1 &&& r.bits == 0

/-- A field of the structure in the EPC page at `pa`. -/
def readField (m : Memory) (pa : Qword) (f : Field) : Nat :=
  m.readNat (pa.toNat + f.off) f.size

/-- A field of the structure in the EPC page at `pa`, written over its full width (D38). -/
def writeField (m : Memory) (pa : Qword) (f : Field) (v : Nat) : Memory :=
  m.writeNat (pa.toNat + f.off) f.size v

/-- "(limit & 0FFFH) = 0FFFH" (spec/40_encls_eadd.md R84). -/
def limitOk (v : Nat) : Bool :=
  v &&& 0xFFF == 0xFFF

/-- FLAGS with DBGOPTIN cleared, the other bits kept (spec/40_encls_eadd.md R88). -/
def clearDbgoptin (l : TcsLayout) (flags : Nat) : Nat :=
  if flags.testBit l.dbgoptin then flags ^^^ 2 ^ l.dbgoptin else flags

/-- The forcing of a TCS page in the EPC (R88): FLAGS.DBGOPTIN, CSSA, AEP and STATE cleared. -/
def forceTcs (l : TcsLayout) (pa : Qword) (m : Memory) : Memory :=
  let m := writeField m pa l.flags (clearDbgoptin l (readField m pa l.flags))
  let m := writeField m pa l.cssa 0
  let m := writeField m pa l.aep 0
  writeField m pa l.state 0

end Sys2Proof.Machine
end

