-- ==== Sys2Proof/Machine/Sha256.lean ====
section
/-! DEFINITION. SHA256UPDATE (spec/40_encls_eadd.md R92): the recommended instantiation, one application of the compression
function to one 64-byte block, and the choice the configuration makes. -/

namespace Sys2Proof.Machine

namespace Sha256

/-- The exclusive or of the rotations of a word to the right by the listed distances: the part `s0`, `s1`, `S0` and `S1` of R92
share. -/
def rotations (x : Dword) : List Nat → Dword
  | [] => 0
  | n :: rest => x.rotateRight n ^^^ rotations x rest

/-- A row of R92's table of constants, its eight words from left to right. -/
def rowWords (row : Nat) : List Dword :=
  (List.range 8).map fun j => BitVec.ofNat 32 (row / 2 ^ (32 * (7 - j)))

/-- `K[0..63]`: R92's table, one number a row. -/
def constants : List Dword :=
  [0x428a2f9871374491b5c0fbcfe9b5dba53956c25b59f111f1923f82a4ab1c5ed5,
   0xd807aa9812835b01243185be550c7dc372be5d7480deb1fe9bdc06a7c19bf174,
   0xe49b69c1efbe47860fc19dc6240ca1cc2de92c6f4a7484aa5cb0a9dc76f988da,
   0x983e5152a831c66db00327c8bf597fc7c6e00bf3d5a7914706ca635114292967,
   0x27b70a852e1b21384d2c6dfc53380d13650a7354766a0abb81c2c92e92722c85,
   0xa2bfe8a1a81a664bc24b8b70c76c51a3d192e819d6990624f40e3585106aa070,
   0x19a4c1161e376c082748774c34b0bcb5391c0cb34ed8aa4a5b9cca4f682e6ff3,
   0x748f82ee78a5636f84c878148cc7020890befffaa4506cebbef9a3f7c67178f2].flatMap rowWords

/-- `W[t]` for t = 0..15: bytes 4t to 4t + 3 of the block, the first one most significant. -/
def bigEndianWord (block : BitVec 512) (t : Nat) : Dword :=
  (List.range 4).foldl (fun w j => w <<< 8 ||| (block.extractLsb' (32 * t + 8 * j) 8).setWidth 32) 0

/-- `n` words of the schedule from `W[t]` on, given the window `W[t], ..., W[t+15]`. Behind its first word, `W[t+1]`, `W[t+9]` and
`W[t+14]` are the entries 0, 8 and 13, and these four make `W[t+16]`. -/
def schedule : (n : Nat) → (window : List Dword) → List Dword
  | n + 1, w :: later =>
    let near := later.getD 13 0
    let far := later.getD 0 0
    let new := (rotations near [17, 19] ^^^ near >>> 10) + later.getD 8 0 + (rotations far [7, 18] ^^^ far >>> 3) + w
    w :: schedule n (later ++ [new])
  | _, _ => []

/-- `Ch(x, y, z)` of R92: bit by bit, y where x is set and z elsewhere. -/
def choose (x y z : Dword) : Dword :=
  z ^^^ (x &&& (y ^^^ z))

/-- `Maj(x, y, z)` of R92: bit by bit, what two of the three agree on. -/
def majority (x y z : Dword) : Dword :=
  (x &&& (y ||| z)) ||| (y &&& z)

/-- The working variables after one round, `kw` being the round's pair (`K[t]`, `W[t]`). -/
def oneRound (v : Digest) (kw : Dword × Dword) : Digest :=
  let t1 := kw.1 + kw.2 + v.h7 + choose v.h4 v.h5 v.h6 + rotations v.h4 [6, 11, 25]
  { h0 := majority v.h0 v.h1 v.h2 + rotations v.h0 [2, 13, 22] + t1
    h1 := v.h0
    h2 := v.h1
    h3 := v.h2
    h4 := t1 + v.h3
    h5 := v.h4
    h6 := v.h5
    h7 := v.h6 }

/-- Word by word sums of two states. -/
def addWords (p q : Digest) : Digest where
  h0 := p.h0 + q.h0
  h1 := p.h1 + q.h1
  h2 := p.h2 + q.h2
  h3 := p.h3 + q.h3
  h4 := p.h4 + q.h4
  h5 := p.h5 + q.h5
  h6 := p.h6 + q.h6
  h7 := p.h7 + q.h7

/-- The compression of one block into the state: 64 rounds, and the state they started from added. -/
def compress (state : Digest) (block : BitVec 512) : Digest :=
  let words := schedule 64 ((List.range 16).map (bigEndianWord block))
  addWords state ((constants.zip words).foldl oneRound state)

/-- The MRENCLAVE that the launch state of spec/95_test_vectors.md starts from. -/
def initial : Digest where
  h0 := 0x6a09e667
  h1 := 0xbb67ae85
  h2 := 0x3c6ef372
  h3 := 0xa54ff53a
  h4 := 0x510e527f
  h5 := 0x9b05688c
  h6 := 0x1f83d9ab
  h7 := 0x5be0cd19

end Sha256

/-- `Cfg.SHA256UPDATE` (R92, log 11). -/
def sha256Update (choice : ShaChoice) (state : Digest) (block : BitVec 512) : Digest :=
  match choice with
  | .fips180 => Sha256.compress state block
  | .other n => Config.sha256Other n state block

end Sys2Proof.Machine
end

