-- ==== Sys2Proof/Syntax.lean ====
section
/-! DEFINITION. The instructions: one constructor per row of spec/opcode_table.json, which has one row. -/

namespace Sys2Proof

/-- The instruction set of spec/30_encoding.md R63. -/
inductive Instr where
  /-- The row `ENCLS[EADD]`: the instruction ENCLS, with all operands implicit (R62); which leaf it performs is decided at
  execution by EAX, not by the instruction's bits (R60). -/
  | encls
  deriving DecidableEq, Repr

end Sys2Proof
end

