-- ==== Sys2Proof/Machine/Eadd.lean ====
section
/-! DEFINITION. The ENCLS leaf functions, whose one member is EADD (spec/40_encls_eadd.md R70 to R94). The checks stand in
the order of R93; a check that fails ends the execution with the outcome R93 gives it and the state R94 gives it. Nothing is
written before every check has passed (R94, R55): up to check 12 a fault carries the state as it was, from check 13 on the
target page's content is free. -/

namespace Sys2Proof.Machine

/-- What checks 0 to 8 leave for the rest of the leaf: addresses, the enclave linear address, and SCRATCH_SECINFO. -/
structure EaddOperands where
  laTgt : Qword
  paTgt : Qword
  laSrc : Qword
  laSecs : Qword
  paSecs : Qword
  linaddr : Qword
  si : BitVec 512
  deriving DecidableEq, Repr

/-- The linear addresses of the three pointer fields of PAGEINFO. -/
structure EaddPointers where
  laSrc : Qword
  laSecs : Qword
  laSi : Qword
  deriving DecidableEq, Repr

/-! ## Checks 0 to 8: operands -/

/-- Admission: SGX1, CPL (check 0), EAX, and the upper halves of RBX and RCX (R71, R64, R31). -/
def eaddAdmission (s : State) : Check Unit := do
  Check.allow s.cfg.sgx1Supported .sgxUnsupported
  Check.require (s.cpl == 0) .invalidOpcode s
  Check.allow (s.eax == 1) .leafNotEadd
  Check.allow (upperHalfClear s.mode s.regs.rbx && upperHalfClear s.mode s.regs.rcx) .mode32UpperBits

/-- Check 5 (R76): the pointers' linear addresses and alignments, and the alignment of LINADDR, which gets no other test. -/
def eaddPointers (s : State) (info : PageInfo) : Check EaddPointers := do
  Check.allow (upperHalfClear s.mode info.srcpge && upperHalfClear s.mode info.secs && upperHalfClear s.mode info.secinfo)
    .mode32UpperBits
  let laSrc ← alignedLinear s info.srcpge 4096 4096
  let laSecs ← alignedLinear s info.secs 4096 4096
  let laSi ← alignedLinear s info.secinfo 64 64
  Check.require (info.linaddr.toNat % 4096 == 0) .generalProtection s
  return { laSrc, laSecs, laSi }

/-- The SECINFO test accepts the page type (R78). -/
def secInfoTypeOk (c : Cfg) (si : BitVec 512) : Bool :=
  secInfoPt c.secInfo si == c.pageTypes.reg || secInfoPt c.secInfo si == c.pageTypes.tcs

/-- Check 8 (R78): reserved fields zero and a page type EADD accepts; then the bits the source leaves open (R42). -/
def eaddSecInfoCheck (s : State) (si : BitVec 512) : Check Unit := do
  Check.require (si &&& s.cfg.secInfo.reservedMask == 0 && secInfoTypeOk s.cfg si) .generalProtection s
  Check.allow (si &&& secInfoOpen s.cfg.secInfo == 0) .secinfoBits5to3

/-- Checks 1 to 8 (R72 to R78). -/
def eaddOperands (s : State) : Check EaddOperands := do
  let laPi ← alignedLinear s s.regs.rbx 32 32
  let laTgt ← alignedLinear s s.regs.rcx 4096 4096
  let paTgt ← resolveEpc s laTgt
  let paPi ← resolveOutside s laPi s
  let info := readPageInfo s paPi
  let p ← eaddPointers s info
  let paSecs ← resolveEpc s p.laSecs
  let paSi ← resolveOutside s p.laSi s
  let si := readSecInfo s paSi
  eaddSecInfoCheck s si
  return { laTgt, paTgt, laSrc := p.laSrc, laSecs := p.laSecs, paSecs, linaddr := info.linaddr, si }

/-! ## Checks 9 to 12: the two EPC pages -/

/-- The five values of the SGX_CONFLICT VM exit (R79, R103). -/
def conflictExit (laTgt paTgt : Qword) : Vmcs where
  exitReason := .sgxConflict
  exitQualificationCode := .epcPageConflictException
  exitQualificationError := 0
  guestPhysicalAddress := paTgt
  guestLinearAddress := laTgt

/-- Check 9 (R79): the target page is available, or the VM exit, or `#GP(0)`. -/
def eaddTargetAvailable (s : State) (laTgt paTgt : Qword) : Check Unit :=
  if targetBusy s.input paTgt then
    if s.vmxNonRoot && s.epcVirtExt then .error (.fault (vmExit (conflictExit laTgt paTgt) s))
    else Check.raise .generalProtection s
  else .ok ()

/-- Check 11 (R81, R59): the SECS is available. -/
def eaddSecsAvailable (s : State) (paTgt paSecs : Qword) : Check Unit := do
  Check.require (!secsBusy s.input paSecs) .generalProtection s
  Check.require (!ownHoldBusy s paTgt paSecs) .generalProtection s.drawn

/-- Check 12 (R82): the SECS page is valid and of type PT_SECS; then its record (R22). -/
def eaddSecsRecord (s : State) (laSecs paSecs : Qword) : Check Secs := do
  Check.require ((s.epcmEntry paSecs).valid && (s.epcmEntry paSecs).pt == s.cfg.pageTypes.secs) (.pageFault laSecs) s
  match s.secsRecord? paSecs with
  | some r => return r
  | none => Check.refuse .secsRecordAbsent

/-- Checks 9 to 12 (R79 to R82). -/
def eaddPages (s : State) (o : EaddOperands) : Check Secs := do
  eaddTargetAvailable s o.laTgt o.paTgt
  Check.require (!(s.epcmEntry o.paTgt).valid) (.pageFault o.laTgt) s
  eaddSecsAvailable s o.paTgt o.paSecs
  eaddSecsRecord s o.laSecs o.paSecs

/-! ## Checks 13 to 17: the copied page, the range, the measurement -/

/-- Memory after the copy of the source page at `paSrc` to the target page at `paTgt` (R83). -/
def copiedMem (s : State) (paSrc paTgt : Qword) : Memory :=
  s.mem.putPage paTgt.toNat (s.mem.page paSrc.toNat)

/-- Check 14 for PT_TCS (R84), on the copy: RESERVED zero; in a 32-bit enclave the limits; then the bits of FLAGS the source
says nothing about (R45, log 21). -/
def eaddTcsCheck (s : State) (paTgt paSrc : Qword) (r : Secs) (atFault : State) : Check Unit := do
  let m := copiedMem s paSrc paTgt
  Check.require (maskClear (m.page paTgt.toNat) s.cfg.tcs.reserved) .generalProtection atFault
  Check.require (r.mode64bit || limitOk (readField m paTgt s.cfg.tcs.fslimit) && limitOk (readField m paTgt s.cfg.tcs.gslimit))
    .generalProtection atFault
  Check.allow (clearDbgoptin s.cfg.tcs (readField m paTgt s.cfg.tcs.flags) == 0) .tcsFlagsReservedBits

/-- Check 14 (R84): by the page type. -/
def eaddTypeCheck (s : State) (o : EaddOperands) (paSrc : Qword) (r : Secs) (atFault : State) : Check Unit :=
  if secInfoPt s.cfg.secInfo o.si = s.cfg.pageTypes.tcs then eaddTcsCheck s o.paTgt paSrc r atFault
  else Check.require (!(o.si.getLsbD s.cfg.secInfo.w && !o.si.getLsbD s.cfg.secInfo.r)) .generalProtection atFault

/-- Check 15 (R85): the page is in the enclave's range; the sum is a natural number, and where it does not fit 64 bits the
spec gives no meaning, whatever LINADDR is. -/
def eaddRangeCheck (linaddr : Qword) (r : Secs) (atFault : State) : Check Unit := do
  Check.allow (r.baseAddr.toNat + r.size.toNat < 2 ^ 64) .secsRangeOverflow
  Check.require (r.baseAddr.toNat ≤ linaddr.toNat && linaddr.toNat < r.baseAddr.toNat + r.size.toNat)
    .generalProtection atFault

/-- Whether the update counter can be incremented (R23). -/
def counterOk (c : Cfg) (n : Nat) : Bool :=
  match c.counterMax with
  | none => true
  | some max => n != max

/-- Checks 13 to 17 (R83 to R87), and the counter's bound; the physical address of the source page. -/
def eaddContents (s : State) (o : EaddOperands) (r : Secs) : Check Qword := do
  let late := s.spoilPage o.paTgt
  let paSrc ← resolveOutside s o.laSrc late
  eaddTypeCheck s o paSrc r late
  eaddRangeCheck o.linaddr r late
  Check.require (!measureBusy s.input o.paSecs) .generalProtection late
  Check.require (!r.init) .generalProtection late
  Check.allow (counterOk s.cfg r.mrcount) .counterOverflow
  return paSrc

/-! ## Effects -/

/-- SCRATCH_SECINFO after the forcing of R88. -/
def forcedSecInfo (c : Cfg) (si : BitVec 512) : BitVec 512 :=
  if secInfoPt c.secInfo si = c.pageTypes.tcs then clearRwx c.secInfo si else si

/-- Memory after the copy (R83) and, for a TCS page, the forcing of its fields (R88). -/
def eaddMem (s : State) (o : EaddOperands) (paSrc : Qword) : Memory :=
  let m := copiedMem s paSrc o.paTgt
  if secInfoPt s.cfg.secInfo o.si = s.cfg.pageTypes.tcs then forceTcs s.cfg.tcs o.paTgt m else m

/-- TMPUPDATEFIELD (R89): the tag "EADD", the enclave offset, and 48 bytes of SECINFO (spec/90_conflicts.md C1). -/
def updateField (offset : Qword) (si : BitVec 512) : BitVec 512 :=
  si.extractLsb' 0 384 ++ offset ++ 0x0000000044444145#64

/-- The SECS record after the measurement (R89). -/
def measuredSecs (c : Cfg) (r : Secs) (linaddr : Qword) (si : BitVec 512) : Secs :=
  { r with
    mrenclave := sha256Update c.sha r.mrenclave (updateField (linaddr - r.baseAddr) si)
    mrcount := r.mrcount + 1 }

/-- The target's EPCM entry (R90); fields the source does not name keep what they held (spec/10_state.md R21). -/
def addedEntry (l : SecInfoLayout) (old : EpcmEntry) (si : BitVec 512) (linaddr : Qword) (identifier : SecsId) :
    EpcmEntry :=
  { old with
    valid := true
    pt := secInfoPt l si
    r := si.getLsbD l.r
    w := si.getLsbD l.w
    x := si.getLsbD l.x
    enclaveAddress := linaddr
    enclaveSecs := identifier
    blocked := false
    pending := false
    modified := false }

/-- The effects of a successful execution (R83, R88 to R91): the page, the measurement, the EPCM entry, RIP; no flag (R14)
and no general register (R12). -/
def eaddEffects (s : State) (o : EaddOperands) (r : Secs) (paSrc : Qword) : State :=
  let si := forcedSecInfo s.cfg o.si
  let s := s.setMem (eaddMem s o paSrc)
  let s := s.setSecs o.paSecs (measuredSecs s.cfg r o.linaddr si)
  let s := s.setEpcm o.paTgt (addedEntry s.cfg.secInfo (s.epcmEntry o.paTgt) si o.linaddr
    (s.secsIdentifier o.paSecs r))
  { s.advanceRip with rflags := flagsAfterEadd s.rflags }

/-- The leaf EADD (R70). -/
def eadd (s : State) : Check State := do
  let o ← eaddOperands s
  let r ← eaddPages s o
  let paSrc ← eaddContents s o r
  return eaddEffects s o r paSrc

/-- ENCLS: the leaf EAX selects, which is EADD or refused (spec/30_encoding.md R60, R64). -/
def execEncls (s : State) : Host.Outcome State Fault Refusal :=
  Check.outcome (do
    eaddAdmission s
    eadd s)

end Sys2Proof.Machine
end

