-- ==== Sys2Proof/WellFormed.lean ====
section
/-! DEFINITION. Which instructions and which configurations are well-formed. Every check is a Bool of its own name. -/

namespace Sys2Proof

/-- ENCLS has no operand field that could be ill-formed (spec/30_encoding.md R62). -/
def Instr.wf : Instr → Bool
  | .encls => true

namespace Cfg

/-- The length is the length of the byte string, and at least one byte (spec/30_encoding.md R61). -/
def lengthOk (c : Cfg) : Bool :=
  c.ilen == c.enclsBytes.length && 0 < c.ilen

/-- The EPC is a set of 4096-byte-aligned page addresses (spec/00_scope.md R6). -/
def epcOk (c : Cfg) : Bool :=
  c.epc.all fun pa => pa.toNat % 4096 == 0

/-- A canonical address has between 1 and 64 significant bits. -/
def widthOk (c : Cfg) : Bool :=
  0 < c.linWidth && c.linWidth ≤ 64

/-- The four fields of PAGEINFO fit its 32 bytes (spec/20_memory.md R40). -/
def pageInfoOk (c : Cfg) : Bool :=
  [c.pageInfo.linaddr, c.pageInfo.srcpge, c.pageInfo.secinfo, c.pageInfo.secs].all fun o => o + 8 ≤ 32

/-- The named SECINFO fields are inside its 512 bits and do not overlap (spec/20_memory.md R42). -/
def secInfoFieldsOk (c : Cfg) : Bool :=
  let l := c.secInfo
  [l.r, l.w, l.x].all (fun b => b < 512 && (b < l.ptLo || l.ptHi < b)) && l.ptLo ≤ l.ptHi && l.ptHi < 512 &&
    l.r != l.w && l.r != l.x && l.w != l.x

/-- No named SECINFO field is reserved. -/
def secInfoMaskOk (c : Cfg) : Bool :=
  let l := c.secInfo
  !l.reservedMask.getLsbD l.r && !l.reservedMask.getLsbD l.w && !l.reservedMask.getLsbD l.x &&
    l.reservedMask.extractLsb' l.ptLo (l.ptHi - l.ptLo + 1) == 0

/-- The three page-type codes are distinct (spec/20_memory.md R43). -/
def pageTypesDistinct (c : Cfg) : Bool :=
  c.pageTypes.secs != c.pageTypes.tcs && c.pageTypes.secs != c.pageTypes.reg && c.pageTypes.tcs != c.pageTypes.reg

/-- The three page-type codes fit the PT field of SECINFO. -/
def pageTypesFit (c : Cfg) : Bool :=
  [c.pageTypes.secs, c.pageTypes.tcs, c.pageTypes.reg].all fun t => t < 2 ^ c.secInfo.ptWidth

/-- The named TCS fields lie inside the page, and DBGOPTIN inside FLAGS (spec/20_memory.md R45). -/
def tcsOk (c : Cfg) : Bool :=
  [c.tcs.state, c.tcs.flags, c.tcs.cssa, c.tcs.aep, c.tcs.fslimit, c.tcs.gslimit].all (fun f => f.off + f.size ≤ 4096) &&
    c.tcs.dbgoptin < 8 * c.tcs.flags.size

/-- The limits are wide enough for the 12-bit test (spec/40_encls_eadd.md R84). -/
def tcsLimitsOk (c : Cfg) : Bool :=
  2 ≤ c.tcs.fslimit.size && 2 ≤ c.tcs.gslimit.size

/-- The two fields share no byte. -/
def fieldsApart (f g : Field) : Bool :=
  f.off + f.size ≤ g.off || g.off + g.size ≤ f.off

/-- No two of the named TCS fields share a byte (spec/20_memory.md R45). -/
def tcsFieldsDisjoint (c : Cfg) : Bool :=
  decide ([c.tcs.state, c.tcs.flags, c.tcs.cssa, c.tcs.aep, c.tcs.fslimit, c.tcs.gslimit].Pairwise
    fun f g => fieldsApart f g = true)

/-- A configuration that meets every check. -/
def wf (c : Cfg) : Bool :=
  c.lengthOk && c.epcOk && c.widthOk && c.pageInfoOk && c.secInfoFieldsOk && c.secInfoMaskOk && c.pageTypesDistinct &&
    c.pageTypesFit && c.tcsOk && c.tcsLimitsOk && c.tcsFieldsDisjoint

end Cfg

end Sys2Proof
end

