-- ==== Sys2Proof/Decode.lean ====
section
/-! DEFINITION. The decoder, total on any bytes, and the encoder. The only instruction is the byte string `code` that the
configuration gives for ENCLS (spec/30_encoding.md R61, R63, R65); the bytes lie in increasing address order. -/

namespace Sys2Proof

/-- Why a byte string is not an instruction of the spec. -/
inductive DecodeError where
  /-- The bytes end before the instruction does, every one of them matching so far. -/
  | truncated
  /-- A byte differs: any other byte string, every prefixed form among them (R65). -/
  | notEncls
  deriving DecidableEq, Repr

/-- The rest of `bytes` after `code`, or why `code` does not stand at their front. -/
def decodePrefix : (code bytes : List Byte) → Except DecodeError (List Byte)
  | [], rest => .ok rest
  | _ :: _, [] => .error .truncated
  | c :: code, b :: rest => if c = b then decodePrefix code rest else .error .notEncls

/-- The instruction at the front of `bytes`, with the bytes after it. Which leaf ENCLS performs is not decided here (R60). -/
def decode (code bytes : List Byte) : Except DecodeError (Instr × List Byte) :=
  match decodePrefix code bytes with
  | .ok rest => .ok (.encls, rest)
  | .error e => .error e

/-- The bytes of an instruction, first byte first. -/
def encode (code : List Byte) : Instr → List Byte
  | .encls => code

/-- The low `n` bytes of a numeral, the first byte of the instruction being the numeral's most significant, as
spec/opcode_table.json writes its match (R63: "first byte most significant in that numeral"). -/
def numeralBytes : (n w : Nat) → List Byte
  | 0, _ => []
  | n + 1, w => BitVec.ofNat 8 (w / 256 ^ n) :: numeralBytes n w

/-- The bytes of a table word, filled up with zeros to the length of the longest instruction. -/
def tableBytes (nbits w : Nat) : List Byte :=
  numeralBytes (nbits / 8) w ++ List.replicate (3 - nbits / 8) 0

/-- The instruction the decoder reads from a word of spec/opcode_table.json, at the default byte string (log 17). -/
def decodeTableWord (nbits w : Nat) : Option Instr :=
  match decode Cfg.default.enclsBytes (tableBytes nbits w) with
  | .ok (i, _) => some i
  | .error _ => none

/-- The three bytes of R61: 0FH; 01H; then 11 001 111 in binary, the fixed byte in the ModRM position. -/
theorem decode_encls_word :
    decode Cfg.default.enclsBytes [0b00001111#8, 0b00000001#8, 0b11001111#8] = .ok (.encls, []) := by
  decide

/-- The table's own row: match 0F01CFH under the mask FFFFFFH (R63). -/
theorem decodeTableWord_encls : decodeTableWord 24 0x0F01CF = some .encls := by
  decide

end Sys2Proof
end

