-- ==== Sys2Proof/Machine/Fetch.lean ====
section
/-! DEFINITION. Fetching the instruction at RIP from the program text (spec/20_memory.md R57, spec/30_encoding.md R61), placing
a program there, and what stands around an execution: the next step's input comes into force (log 6). -/

namespace Sys2Proof.Machine

/-- The bytes of the program text at RIP, RIP + 1, ..., up to `n` of them, ending before an address that holds none. That these
addresses wrap at the top of the address space, as RIP's advance does, is the model's choice: R61 does not say (DESIGN CHOICE, log
46). -/
def fetchBytes (s : State) (n : Nat) : List Byte :=
  ((List.range n).map fun k => find? s.text (s.ripPlus k).toNat).takeWhile Option.isSome |>.map fun b => b.getD 0

/-- The instruction at RIP, or the refusal of R65. -/
def fetch (s : State) : Except Refusal Instr :=
  match decode s.cfg.enclsBytes (fetchBytes s s.cfg.enclsBytes.length) with
  | .ok (i, _) => .ok i
  | .error _ => .error .notEncls

/-- The general registers with one of them loaded: the harness step `SET reg, value` (spec/70_reset_and_hazards.md R128). -/
def Regs.set (r : Regs) (reg : Reg) (v : Qword) : Regs :=
  match reg with
  | .rax => { r with rax := v }
  | .rcx => { r with rcx := v }
  | .rdx => { r with rdx := v }
  | .rbx => { r with rbx := v }
  | .rsp => { r with rsp := v }
  | .rbp => { r with rbp := v }
  | .rsi => { r with rsi := v }
  | .rdi => { r with rdi := v }
  | .r8 => { r with r8 := v }
  | .r9 => { r with r9 := v }
  | .r10 => { r with r10 := v }
  | .r11 => { r with r11 := v }
  | .r12 => { r with r12 := v }
  | .r13 => { r with r13 := v }
  | .r14 => { r with r14 := v }
  | .r15 => { r with r15 := v }

/-- The registers after the harness's loads, in order. -/
def Regs.load (r : Regs) : List (Reg × Qword) → Regs
  | [] => r
  | l :: rest => Regs.load (r.set l.1 l.2) rest

/-- The next queued input in force and its register loads made; with none queued the input stays as it is (log 6). -/
def State.nextInput (s : State) : State :=
  match s.upcoming with
  | [] => s
  | i :: rest => { s with input := i, upcoming := rest, regs := s.regs.load i.loads }

/-- Between two executions: the next input, and free values no earlier step has drawn. -/
def State.betweenSteps (s : State) : State :=
  s.nextInput.drawn

/-- Bytes stored in the program text at RIP, RIP + 1, ..., the addresses at which `fetchBytes` reads (log 46). -/
def State.placeText (s : State) (bytes : List Byte) : State :=
  { s with text := (bytes.zipIdx).foldl (fun t b => put t (s.ripPlus b.2).toNat b.1) s.text }

/-- EAX = 00000001H, the selection of the leaf EADD (spec/30_encoding.md R60, R67); RAX[63:32] as before. -/
def State.selectEadd (s : State) : State :=
  { s with regs := { s.regs with rax := s.regs.rax &&& 0xFFFFFFFF00000000#64 ||| 1#64 } }

end Sys2Proof.Machine
end

