-- ==== Sys2Proof/Machine/Step.lean ====
section
/-! DEFINITION. One step of the machine: fetch at RIP, execute, and bring the next input into force. -/

namespace Sys2Proof.Machine

/-- One step. -/
def step (s : State) : Host.Outcome State Fault Refusal :=
  match fetch s with
  | .error r => .refused r
  | .ok i =>
    match exec i s with
    | .next t => .next t.betweenSteps
    | .fault f => .fault f
    | .refused r => .refused r

/-- The state with a word of spec/opcode_table.json as the instruction the next step runs: its bytes in the program text at
RIP, and, where the word is the row `ENCLS[EADD]`, the leaf selection EAX = 1 that the row is made of (log 16, 17). -/
def State.withFetchWord (s : State) (nbits w : Nat) : State :=
  let placed := s.placeText (tableBytes nbits w)
  match decodeTableWord nbits w with
  | some .encls => placed.selectEadd
  | none => placed

end Sys2Proof.Machine
end

