-- ==== Sys2Proof/Safety.lean ====
section
/-! DEFINITION. The terms claims are stated in: the checks of spec/40_encls_eadd.md R93 written as a table of conditions on
the state and the temporaries (independently of the machine's own check functions), and the invariants of the EPC's metadata. -/

namespace Sys2Proof.Safety

open Sys2Proof.Machine

/-! ## The temporaries and addresses of one execution -/

/-- The values an execution works with (spec/10_state.md R27, spec/40_encls_eadd.md R70): linear and physical addresses of the
operands, the PAGEINFO temporaries, SCRATCH_SECINFO as read, and the SECS record. -/
structure Temps where
  laPi : Qword
  laTgt : Qword
  paTgt : Qword
  paPi : Qword
  info : PageInfo
  laSrc : Qword
  laSecs : Qword
  laSi : Qword
  paSecs : Qword
  paSi : Qword
  si : BitVec 512
  secs : Secs
  paSrc : Qword
  deriving DecidableEq, Repr

/-! ## Address conditions (spec/20_memory.md R31 to R36) -/

/-- Bits 63 down to `width - 1` are all equal. -/
abbrev Canonical (width : Nat) (ea : Qword) : Prop :=
  ∀ i, i < 64 → width - 1 ≤ i → ea.getLsbD i = ea.getLsbD 63

/-- `la` is `Lin(ea, n)`. -/
abbrev LinearIs (s : State) (ea : Qword) (n : Nat) (la : Qword) : Prop :=
  (s.mode = .mode64 → Canonical s.cfg.linWidth ea ∧ la = ea) ∧
    (s.mode = .mode32 → ea.toNat % 2 ^ 32 + n ≤ s.ds.limit.toNat + 1 ∧
      la.toNat = (s.ds.base.toNat + ea.toNat % 2 ^ 32) % 2 ^ 32)

/-- `Lin(ea, n)` raises `#GP(0)`: not canonical in `Mode64`, the last byte outside the DS limit in `Mode32`. -/
abbrev LinearFaults (s : State) (ea : Qword) (n : Nat) : Prop :=
  (s.mode = .mode64 → ¬ Canonical s.cfg.linWidth ea) ∧
    (s.mode = .mode32 → s.ds.limit.toNat + 1 < ea.toNat % 2 ^ 32 + n)

/-- The operand at `ea` faults with `#GP(0)`: no linear address, or a misaligned one. -/
abbrev OperandFaults (s : State) (ea : Qword) (n align : Nat) : Prop :=
  LinearFaults s ea n ∨ ∃ la, LinearIs s ea n la ∧ la.toNat % align ≠ 0

/-- In `Mode32` the upper half is zero. -/
abbrev UpperClear (s : State) (v : Qword) : Prop :=
  s.mode = .mode32 → v.toNat < 2 ^ 32

/-- The page of a physical address is a page of the EPC. -/
abbrev InEpc (s : State) (pa : Qword) : Prop :=
  BitVec.ofNat 64 (pa.toNat / 4096 * 4096) ∈ s.cfg.epc

/-- The region covers an access of kind `acc` to `lin` (spec/20_memory.md R34). -/
abbrev Covers (r : MapRegion) (acc : Access) (lin : Qword) : Prop :=
  r.acc = acc ∧ r.page ≤ lin.toNat / 4096 ∧ lin.toNat / 4096 < r.page + r.pages

/-- `la` does not resolve within an EPC for a write: no translation, or a page outside. -/
abbrev NotResolvedInEpc (s : State) (la : Qword) : Prop :=
  resolve s.input la .wr = none ∨ ∃ pa, resolve s.input la .wr = some pa ∧ ¬ InEpc s pa

/-! ## SECINFO and TCS conditions -/

/-- SECINFO.FLAGS.PT as a number. -/
abbrev PtOf (c : Cfg) (si : BitVec 512) : Nat :=
  si.toNat / 2 ^ c.secInfo.ptLo % 2 ^ c.secInfo.ptWidth

/-- At the default layout the bits 5:3, which the source leaves open, are zero. -/
abbrev OpenBitsClear (c : Cfg) (si : BitVec 512) : Prop :=
  c.secInfo = .default → si.getLsbD 3 = false ∧ si.getLsbD 4 = false ∧ si.getLsbD 5 = false

/-- The reserved fields of SECINFO are zero. -/
abbrev ReservedZero (c : Cfg) (si : BitVec 512) : Prop :=
  si &&& c.secInfo.reservedMask = 0

/-- The RESERVED bytes of the page at `pa` are zero under the mask. -/
abbrev TcsReservedZero (s : State) (pa : Qword) : Prop :=
  ∀ m ∈ s.cfg.tcs.reserved, ∀ k, k < 4096 → m.off ≤ k → k < m.off + m.len → s.mem.byte (pa.toNat + k) &&& m.bits = 0

/-- The low 12 bits of FSLIMIT and GSLIMIT of the TCS at `pa` are all ones, in an enclave that is not 64-bit. -/
abbrev TcsLimitsOk (s : State) (pa : Qword) (r : Secs) : Prop :=
  r.mode64bit = false →
    readField s.mem pa s.cfg.tcs.fslimit % 4096 = 4095 ∧ readField s.mem pa s.cfg.tcs.gslimit % 4096 = 4095

/-- FLAGS of the TCS at `pa` holds no bit but DBGOPTIN. -/
abbrev TcsFlagsOk (s : State) (pa : Qword) : Prop :=
  readField s.mem pa s.cfg.tcs.flags = 0 ∨ readField s.mem pa s.cfg.tcs.flags = 2 ^ s.cfg.tcs.dbgoptin

/-- The added page is a TCS. -/
abbrev IsTcs (s : State) (t : Temps) : Prop :=
  PtOf s.cfg t.si = s.cfg.pageTypes.tcs

/-! ## The checks of R93, each as it passes -/

/-- Admission and check 0: SGX1, CPL 0, EAX = 1, and usable RBX and RCX. -/
abbrev Pass0 (s : State) : Prop :=
  s.cfg.sgx1Supported = true ∧ s.cpl = 0 ∧ s.regs.rax.toNat % 2 ^ 32 = 1 ∧ UpperClear s s.regs.rbx ∧ UpperClear s s.regs.rcx

/-- Check 1: DS:RBX. -/
abbrev Pass1 (s : State) (t : Temps) : Prop :=
  LinearIs s s.regs.rbx 32 t.laPi ∧ t.laPi.toNat % 32 = 0

/-- Check 2: DS:RCX. -/
abbrev Pass2 (s : State) (t : Temps) : Prop :=
  LinearIs s s.regs.rcx 4096 t.laTgt ∧ t.laTgt.toNat % 4096 = 0

/-- Check 3: the target resolves within an EPC. -/
abbrev Pass3 (s : State) (t : Temps) : Prop :=
  resolve s.input t.laTgt .wr = some t.paTgt ∧ InEpc s t.paTgt

/-- Check 4: PAGEINFO is readable outside the EPC, and its four fields are the temporaries. -/
abbrev Pass4 (s : State) (t : Temps) : Prop :=
  resolve s.input t.laPi .rd = some t.paPi ∧ ¬ InEpc s t.paPi ∧
    t.info.linaddr.toNat = s.mem.readNat (t.paPi.toNat + s.cfg.pageInfo.linaddr) 8 ∧
    t.info.srcpge.toNat = s.mem.readNat (t.paPi.toNat + s.cfg.pageInfo.srcpge) 8 ∧
    t.info.secinfo.toNat = s.mem.readNat (t.paPi.toNat + s.cfg.pageInfo.secinfo) 8 ∧
    t.info.secs.toNat = s.mem.readNat (t.paPi.toNat + s.cfg.pageInfo.secs) 8

/-- The three pointer fields are usable as effective addresses (R31). -/
abbrev PointersUsable (s : State) (t : Temps) : Prop :=
  UpperClear s t.info.srcpge ∧ UpperClear s t.info.secs ∧ UpperClear s t.info.secinfo

/-- Check 5: the pointers and LINADDR. -/
abbrev Pass5 (s : State) (t : Temps) : Prop :=
  PointersUsable s t ∧
    LinearIs s t.info.srcpge 4096 t.laSrc ∧ t.laSrc.toNat % 4096 = 0 ∧
    LinearIs s t.info.secs 4096 t.laSecs ∧ t.laSecs.toNat % 4096 = 0 ∧
    LinearIs s t.info.secinfo 64 t.laSi ∧ t.laSi.toNat % 64 = 0 ∧
    t.info.linaddr.toNat % 4096 = 0

/-- Check 6: the SECS resolves within an EPC. -/
abbrev Pass6 (s : State) (t : Temps) : Prop :=
  resolve s.input t.laSecs .wr = some t.paSecs ∧ InEpc s t.paSecs

/-- Check 7: SECINFO is readable outside the EPC. -/
abbrev Pass7 (s : State) (t : Temps) : Prop :=
  resolve s.input t.laSi .rd = some t.paSi ∧ ¬ InEpc s t.paSi ∧ t.si.toNat = s.mem.readNat t.paSi.toNat 64

/-- What check 8 tests: reserved fields zero, and the page type PT_REG or PT_TCS. -/
abbrev SecInfoOk (s : State) (t : Temps) : Prop :=
  ReservedZero s.cfg t.si ∧ (PtOf s.cfg t.si = s.cfg.pageTypes.reg ∨ PtOf s.cfg t.si = s.cfg.pageTypes.tcs)

/-- Check 8, with none of the bits set that the source leaves open (R42). -/
abbrev Pass8 (s : State) (t : Temps) : Prop :=
  SecInfoOk s t ∧ OpenBitsClear s.cfg t.si

/-- Check 9: the target page is available. -/
abbrev Pass9 (s : State) (t : Temps) : Prop :=
  targetBusy s.input t.paTgt = false

/-- Check 10: the target page is not valid. -/
abbrev Pass10 (s : State) (t : Temps) : Prop :=
  (s.epcmEntry t.paTgt).valid = false

/-- Check 11: the SECS is available. -/
abbrev Pass11 (s : State) (t : Temps) : Prop :=
  secsBusy s.input t.paSecs = false

/-- What check 12 tests of the EPCM entry of the SECS page. -/
abbrev SecsPageOk (s : State) (t : Temps) : Prop :=
  (s.epcmEntry t.paSecs).valid = true ∧ (s.epcmEntry t.paSecs).pt = s.cfg.pageTypes.secs

/-- Check 12, with the record the page holds (spec/10_state.md R22). -/
abbrev Pass12 (s : State) (t : Temps) : Prop :=
  SecsPageOk s t ∧ s.secsRecord? t.paSecs = some t.secs

/-- Check 13: the source page is readable outside the EPC. -/
abbrev Pass13 (s : State) (t : Temps) : Prop :=
  resolve s.input t.laSrc .rd = some t.paSrc ∧ ¬ InEpc s t.paSrc

/-- What check 14 tests, by the page type. -/
abbrev PageTypeOk (s : State) (t : Temps) : Prop :=
  (IsTcs s t → TcsReservedZero s t.paSrc ∧ TcsLimitsOk s t.paSrc t.secs) ∧
    (¬ IsTcs s t → t.si.getLsbD s.cfg.secInfo.w = true → t.si.getLsbD s.cfg.secInfo.r = true)

/-- Check 14, with no bit of TCS.FLAGS set that the source says nothing about (spec/20_memory.md R45). -/
abbrev Pass14 (s : State) (t : Temps) : Prop :=
  PageTypeOk s t ∧ (IsTcs s t → TcsFlagsOk s t.paSrc)

/-- Check 15: LINADDR in the enclave's range, the range's end being below 2^64. -/
abbrev Pass15 (t : Temps) : Prop :=
  t.secs.baseAddr.toNat + t.secs.size.toNat < 2 ^ 64 ∧ t.secs.baseAddr.toNat ≤ t.info.linaddr.toNat ∧
    t.info.linaddr.toNat < t.secs.baseAddr.toNat + t.secs.size.toNat

/-- Check 16: the measurement is not being updated. -/
abbrev Pass16 (s : State) (t : Temps) : Prop :=
  measureBusy s.input t.paSecs = false

/-- Check 17: the enclave is not initialized. -/
abbrev Pass17 (t : Temps) : Prop :=
  t.secs.init = false

/-- The update counter is not at its bound (spec/10_state.md R23). -/
abbrev CounterFree (s : State) (t : Temps) : Prop :=
  s.cfg.counterMax ≠ some t.secs.mrcount

/-! ## Prefixes of the table -/

/-- Admission and checks 0 to 3 pass. -/
abbrev Through3 (s : State) (t : Temps) : Prop :=
  Pass0 s ∧ Pass1 s t ∧ Pass2 s t ∧ Pass3 s t

/-- Checks 0 to 5 pass. -/
abbrev Through5 (s : State) (t : Temps) : Prop :=
  Through3 s t ∧ Pass4 s t ∧ Pass5 s t

/-- Checks 0 to 7 pass. -/
abbrev Through7 (s : State) (t : Temps) : Prop :=
  Through5 s t ∧ Pass6 s t ∧ Pass7 s t

/-- Checks 0 to 8 pass. -/
abbrev Through8 (s : State) (t : Temps) : Prop :=
  Through7 s t ∧ Pass8 s t

/-- Checks 0 to 10 pass. -/
abbrev Through10 (s : State) (t : Temps) : Prop :=
  Through8 s t ∧ Pass9 s t ∧ Pass10 s t

/-- Checks 0 to 12 pass. -/
abbrev Through12 (s : State) (t : Temps) : Prop :=
  Through10 s t ∧ Pass11 s t ∧ Pass12 s t

/-- Checks 0 to 13 pass. -/
abbrev Through13 (s : State) (t : Temps) : Prop :=
  Through12 s t ∧ Pass13 s t

/-- Checks 0 to 15 pass. -/
abbrev Through15 (s : State) (t : Temps) : Prop :=
  Through13 s t ∧ Pass14 s t ∧ Pass15 t

/-- Every check passes. -/
abbrev AllPass (s : State) (t : Temps) : Prop :=
  Through15 s t ∧ Pass16 s t ∧ Pass17 t ∧ CounterFree s t

/-! ## Premises and outcomes -/

/-- The named premise of R54: no other agent executes an SGX leaf that holds the target page or works on the SECS. -/
abbrev NoConflict (s : State) (t : Temps) : Prop :=
  ∀ o ∈ s.input.others, (∀ h ∈ o.holds, h.1 ≠ t.paTgt ∧ h.1 ≠ t.paSecs) ∧ o.secs ≠ some t.paTgt ∧ o.secs ≠ some t.paSecs

/-- The state with every byte of the page at `pa` set aside: what R94 calls unspecified after the copy. -/
def SameButPage (s t : State) (pa : Qword) : Prop :=
  (∀ a, a < pa.toNat ∨ pa.toNat + 4096 ≤ a → t.mem.byte a = s.mem.byte a) ∧
    { t with mem := s.mem, draws := s.draws } = s

/-- What a general register holds, by its name (spec/10_state.md R11, R12). -/
def regOf (g : Regs) : Reg → Qword
  | .rax => g.rax
  | .rcx => g.rcx
  | .rdx => g.rdx
  | .rbx => g.rbx
  | .rsp => g.rsp
  | .rbp => g.rbp
  | .rsi => g.rsi
  | .rdi => g.rdi
  | .r8 => g.r8
  | .r9 => g.r9
  | .r10 => g.r10
  | .r11 => g.r11
  | .r12 => g.r12
  | .r13 => g.r13
  | .r14 => g.r14
  | .r15 => g.r15

/-- The execution ends in `#GP(0)` (spec/60_exceptions.md R100). -/
abbrev RaisesGp (s : State) : Prop :=
  ∃ u, exec .encls s = .fault (.gp 0 u)

/-- The execution ends in `#PF(la)`, with some error code (R101). -/
abbrev RaisesPf (s : State) (la : Qword) : Prop :=
  ∃ ec u, exec .encls s = .fault (.pf la ec u)

/-- The execution ends in `#PF` at an address of the `n`-byte operand at `la`: the low bits of the address are open (U19, log
38). -/
abbrev RaisesPfWithin (s : State) (la : Qword) (n : Nat) : Prop :=
  ∃ lin ec u, exec .encls s = .fault (.pf lin ec u) ∧ lin.toNat / n = la.toNat / n

/-- The state a terminal outcome carries. -/
def faultState : Fault → State
  | .gp _ u => u
  | .pf _ _ u => u
  | .ud u => u
  | .vmExit _ u => u

/-- A terminal outcome with its state changed. -/
def mapFault (g : State → State) : Fault → Fault
  | .gp ec u => .gp ec (g u)
  | .pf la ec u => .pf la ec (g u)
  | .ud u => .ud (g u)
  | .vmExit v u => .vmExit v (g u)

/-- An outcome with its state changed. -/
def mapOutcome (g : State → State) : Host.Outcome State Fault Refusal → Host.Outcome State Fault Refusal
  | .next u => .next (g u)
  | .fault f => .fault (mapFault g f)
  | .refused r => .refused r

/-! ## Invariants -/

/-- Memory, EPCM, SECS records and program text are in canonical form. -/
def ListsCanonical (s : State) : Prop :=
  s.mem.wf = true ∧ keysRising s.epcm = true ∧ (∀ c ∈ s.epcm, c.2 ≠ .empty) ∧ keysRising s.secs = true ∧
    keysRising s.text = true

/-- Every valid EPCM entry is that of a page of the EPC. -/
def ValidInEpc (s : State) : Prop :=
  ∀ pa, (s.epcmEntry pa).valid = true → pa ∈ s.cfg.epc

/-- Every valid PT_SECS page holds a SECS record (spec/10_state.md R22, R28). -/
def SecsHaveRecords (s : State) : Prop :=
  ∀ pa, (s.epcmEntry pa).valid = true → (s.epcmEntry pa).pt = s.cfg.pageTypes.secs → (s.secsRecord? pa).isSome = true

/-- The security attributes of valid pages: a TCS page has R = W = X = 0, a writable regular page is readable. -/
def AttributesSound (s : State) : Prop :=
  ∀ pa, (s.epcmEntry pa).valid = true →
    ((s.epcmEntry pa).pt = s.cfg.pageTypes.tcs →
      (s.epcmEntry pa).r = false ∧ (s.epcmEntry pa).w = false ∧ (s.epcmEntry pa).x = false) ∧
    ((s.epcmEntry pa).pt = s.cfg.pageTypes.reg → (s.epcmEntry pa).w = true → (s.epcmEntry pa).r = true)

/-- The PT field of every EPCM entry is as wide as that of SECINFO (spec/10_state.md R20). -/
def PtFits (s : State) : Prop :=
  ∀ pa, (s.epcmEntry pa).pt < 2 ^ s.cfg.secInfo.ptWidth

/-- `r` is the record of a valid PT_SECS page at `ps`. -/
abbrev IsSecs (s : State) (ps : Qword) (r : Secs) : Prop :=
  (s.epcmEntry ps).valid = true ∧ (s.epcmEntry ps).pt = s.cfg.pageTypes.secs ∧ s.secsRecord? ps = some r

/-- Different SECS have different identifiers (decision D24). -/
def IdentifiersDistinct (s : State) : Prop :=
  ∀ ps r ps' r', IsSecs s ps r → IsSecs s ps' r' → s.secsIdentifier ps r = s.secsIdentifier ps' r' → ps = ps'

/-- Every valid regular or TCS page belongs to a SECS: one with the identifier the entry stores, whose enclave range holds the
entry's linear address. -/
def PagesOwned (s : State) : Prop :=
  ∀ pa, (s.epcmEntry pa).valid = true →
    (s.epcmEntry pa).pt = s.cfg.pageTypes.tcs ∨ (s.epcmEntry pa).pt = s.cfg.pageTypes.reg →
    ∃ ps r, IsSecs s ps r ∧ s.secsIdentifier ps r = (s.epcmEntry pa).enclaveSecs ∧
      r.baseAddr.toNat ≤ (s.epcmEntry pa).enclaveAddress.toNat ∧
      (s.epcmEntry pa).enclaveAddress.toNat < r.baseAddr.toNat + r.size.toNat

/-- The EPC's metadata is sound. -/
def EpcSound (s : State) : Prop :=
  s.cfg.wf = true ∧ PtFits s ∧ ValidInEpc s ∧ SecsHaveRecords s ∧ IdentifiersDistinct s ∧ AttributesSound s ∧ PagesOwned s

/-- What no step that goes on changes: the configuration, the program text, CPL, mode, DS, the flags, the VMX conditions and the
VMCS. -/
def SameFixture (s t : State) : Prop :=
  t.cfg = s.cfg ∧ t.text = s.text ∧ t.cpl = s.cpl ∧ t.mode = s.mode ∧ t.ds = s.ds ∧ t.rflags = s.rflags ∧
    t.vmxNonRoot = s.vmxNonRoot ∧ t.epcVirtExt = s.epcVirtExt ∧ t.vmcs = s.vmcs

end Sys2Proof.Safety
end

