-- ==== Sys2Proof/Certificates/Slice0/Obligations.lean ====
section
/-! DEFINITION. The statements for the provers. `s` is any state, `t` the temporaries of an execution, `Pass<n>` the condition
under which check n of spec/40_encls_eadd.md R93 passes and `Through<n>` that checks 0 to n pass (Sys2Proof/Safety.lean). -/

open Sys2Proof Sys2Proof.Machine Sys2Proof.Safety

/-! ## Encoding and the step -/

/-- R61, R63, R65: exactly the byte string the configuration gives ENCLS decodes, to ENCLS, with the bytes after it left over;
so decoding an encoded instruction gives it back and nothing else decodes. The byte string is a parameter (decision D37). -/
def Obligations.DecodesExactlyTheEncodings : Prop :=
  ∀ (code bytes rest : List Byte) (i : Instr), decode code bytes = .ok (i, rest) ↔ i.wf = true ∧ bytes = encode code i ++ rest

/-- R63: of the 24-bit words of the opcode table exactly 0F01CFH decodes; and the bytes 0F 01 CF written out bit by bit from
R61 do, while ENCLS after a prefix (F3H, 66H) does not. The byte values are the spec's general knowledge GK2; how the word is
numbered is the model's (log 17). -/
def Obligations.TableWordIsEncls : Prop :=
  (∀ w, w < 2 ^ 24 → (decodeTableWord 24 w = some .encls ↔ w = 0x0F01CF)) ∧
    decode [0x0F, 0x01, 0xCF] [0b00001111, 0b00000001, 0b11001111, 0x90] = .ok (.encls, [0x90]) ∧
    decode [0x0F, 0x01, 0xCF] [0xF3, 0x0F, 0x01, 0xCF] = .error .notEncls ∧
    decode [0x0F, 0x01, 0xCF] [0x66, 0x0F, 0x01, 0xCF] = .error .notEncls

/-- R61: when the program text holds the bytes of ENCLS at RIP, RIP + 1, ..., a step is the execution of ENCLS, and after it,
if it goes on, the next input comes into force. The program text and the queue of inputs are the model's form of R57 and R29
(log 6, 16); that the addresses of the bytes wrap as RIP's advance does is the model's choice (log 46). -/
def Obligations.StepRunsEnclsAtRip : Prop :=
  ∀ s : State,
    (∀ k (hk : k < s.cfg.enclsBytes.length), find? s.text (s.ripPlus k).toNat = some s.cfg.enclsBytes[k]) →
    step s = match exec .encls s with
      | .next u => .next u.betweenSteps
      | .fault f => .fault f
      | .refused r => .refused r

/-- When the bytes fetched at RIP decode to a well-formed instruction i, a step is the execution of i at that state, and after
it, if it goes on, the next input comes into force. (Log 6, 16, 46.) -/
def Obligations.StepRunsDecodedInstruction : Prop :=
  ∀ (s : State) (i : Instr) (rest : List Byte), i.wf = true →
    decode s.cfg.enclsBytes (fetchBytes s s.cfg.enclsBytes.length) = .ok (i, rest) →
    step s = match exec i s with
      | .next u => .next u.betweenSteps
      | .fault f => .fault f
      | .refused r => .refused r

/-- R65: a byte at RIP + k that is missing, or is not byte k of ENCLS, and the step is refused as NotENCLS. (Decision; log
26. That RIP + k wraps as RIP's advance does is the model's choice, log 46.) -/
def Obligations.OtherBytesAreRefused : Prop :=
  ∀ (s : State) (k : Nat) (hk : k < s.cfg.enclsBytes.length),
    find? s.text (s.ripPlus k).toNat ≠ some s.cfg.enclsBytes[k] → step s = .refused .notEncls

/-- R13: RIP + n is taken modulo 2^64 in Mode64 and modulo 2^32 in Mode32. For n = ILEN this is R13's advance (the spec's general
knowledge; log 18); for the bytes of the instruction it is the model's choice (log 46). -/
def Obligations.RipAdvanceWraps : Prop :=
  ∀ (s : State) (n : Nat),
    (s.mode = .mode64 → (s.ripPlus n).toNat = (s.rip.toNat + n) % 2 ^ 64) ∧
      (s.mode = .mode32 → (s.ripPlus n).toNat = (s.rip.toNat + n) % 2 ^ 32)

/-- R128 and the model's queue of inputs (log 6): between two executions the queued input, if any, comes into force with its
register loads, each register holding what the last load of it gives, or what it held if none is of it; nothing else changes but
the count of free values (log 8). -/
def Obligations.BetweenStepsOnlyInputsChange : Prop :=
  ∀ s : State,
    (s.upcoming = [] → s.betweenSteps = { s with draws := s.draws + 1 }) ∧
      (∀ i rest, s.upcoming = i :: rest →
        ∃ g, s.betweenSteps = { s with input := i, upcoming := rest, regs := g, draws := s.draws + 1 } ∧
          ∀ r, regOf g r = ((i.loads.reverse.find? fun l => l.1 = r).map Prod.snd).getD (regOf s.regs r))

/-! ## Address translation -/

/-- R34 with the model's form of Resolve (log 5): a translation keeps the low 12 bits; the first region of the paging that covers
the access maps its linear page `page + k` to the physical page `frame + k`; and with no such region there is no translation. -/
def Obligations.ResolveMapsRegions : Prop :=
  ∀ (i : StepInput) (lin : Qword) (acc : Access),
    (∀ pa, resolve i lin acc = some pa → pa.toNat % 4096 = lin.toNat % 4096) ∧
      (∀ before r after k, i.paging = before ++ r :: after → (∀ q ∈ before, ¬ Covers q acc lin) → r.acc = acc →
        k < r.pages → lin.toNat / 4096 = r.page + k →
        ∃ pa, resolve i lin acc = some pa ∧ pa.toNat / 4096 = (r.frame + k) % 2 ^ 52) ∧
      ((∀ q ∈ i.paging, ¬ Covers q acc lin) → resolve i lin acc = none)

/-! ## Admission -/

/-- R71, D4: on a processor with SGX1, CPL other than 0 is `#UD`, before everything else, with no state change. That it is
`#UD` is decision D4 (log 3). -/
def Obligations.NonzeroCplRaisesUd : Prop :=
  ∀ s : State, s.cfg.sgx1Supported = true → s.cpl ≠ 0 → exec .encls s = .fault (.ud s)

/-- R71: "This instruction can only be executed when current privilege level is 0": no step goes on, and no outcome carries a
changed state, unless CPL = 0. -/
def Obligations.NoEffectUnlessCplZero : Prop :=
  ∀ s : State, s.cpl ≠ 0 →
    (∀ u, step s ≠ .next u) ∧ (∀ f, step s = .fault f → faultState f = s)

/-- R71, R64, R31: without SGX1, with another leaf number in EAX, or in Mode32 with a nonzero upper half of RBX or RCX, the
model refuses, each under its own name. The refusals are the spec's decisions (log 19, 26). -/
def Obligations.AdmissionRefusals : Prop :=
  ∀ s : State,
    (s.cfg.sgx1Supported = false → exec .encls s = .refused .sgxUnsupported) ∧
      (s.cfg.sgx1Supported = true → s.cpl = 0 → s.regs.rax.toNat % 2 ^ 32 ≠ 1 → exec .encls s = .refused .leafNotEadd) ∧
      (s.cfg.sgx1Supported = true → s.cpl = 0 → s.regs.rax.toNat % 2 ^ 32 = 1 → s.mode = .mode32 →
        2 ^ 32 ≤ s.regs.rbx.toNat ∨ 2 ^ 32 ≤ s.regs.rcx.toNat → exec .encls s = .refused .mode32UpperBits)

/-! ## Checks 1 to 8 -/

/-- R72: DS:RBX without a linear address, or not 32-byte aligned, is `#GP(0)`; nothing is written. -/
def Obligations.MisalignedPageinfoRaisesGp : Prop :=
  ∀ s : State, Pass0 s → OperandFaults s s.regs.rbx 32 32 → exec .encls s = .fault (.gp 0 s)

/-- R73: DS:RCX without a linear address, or not 4-KByte aligned, is `#GP(0)`; nothing is written. -/
def Obligations.MisalignedTargetRaisesGp : Prop :=
  ∀ (s : State) (t : Temps), Pass0 s → Pass1 s t → OperandFaults s s.regs.rcx 4096 4096 →
    exec .encls s = .fault (.gp 0 s)

/-- R74: DS:RCX that does not resolve within an EPC (no translation for a write, or a page outside) is `#PF(DS:RCX)`. -/
def Obligations.TargetOutsideEpcRaisesPf : Prop :=
  ∀ (s : State) (t : Temps), Pass0 s → Pass1 s t → Pass2 s t → NotResolvedInEpc s t.laTgt → RaisesPf s t.laTgt

/-- R75: PAGEINFO that cannot be read is `#PF(DS:RBX)`, at some address of its 32 bytes (U19); inside the EPC it is refused.
The refusal is decision D30 (log 24). -/
def Obligations.UnreadablePageinfo : Prop :=
  ∀ (s : State) (t : Temps), Through3 s t →
    (resolve s.input t.laPi .rd = none → RaisesPfWithin s t.laPi 32) ∧
      (∀ pa, resolve s.input t.laPi .rd = some pa → InEpc s pa → exec .encls s = .refused .nonEnclaveOperandInEpc)

/-- R76: a source page, SECS or SECINFO pointer without a linear address or misaligned, or a misaligned LINADDR, is `#GP(0)`.
What is aligned is the linear address (decision D8, log 28). -/
def Obligations.MisalignedPointersRaiseGp : Prop :=
  ∀ (s : State) (t : Temps), Through3 s t → Pass4 s t → PointersUsable s t →
    OperandFaults s t.info.srcpge 4096 4096 ∨ OperandFaults s t.info.secs 4096 4096 ∨
      OperandFaults s t.info.secinfo 64 64 ∨ t.info.linaddr.toNat % 4096 ≠ 0 →
    RaisesGp s

/-- R31: in Mode32 a pointer field of PAGEINFO with a nonzero upper half is refused. (U13, log 19.) -/
def Obligations.PointerUpperBitsRefused : Prop :=
  ∀ (s : State) (t : Temps), Through3 s t → Pass4 s t → ¬ PointersUsable s t → exec .encls s = .refused .mode32UpperBits

/-- R77: DS:TMP_SECS that does not resolve within an EPC is `#PF(DS:TMP_SECS)`. -/
def Obligations.SecsOutsideEpcRaisesPf : Prop :=
  ∀ (s : State) (t : Temps), Through5 s t → NotResolvedInEpc s t.laSecs → RaisesPf s t.laSecs

/-- R78 with R42: SECINFO unreadable is `#PF(DS:TMP_SECINFO)`, at some address of its 64 bytes (U19); inside the EPC it is
refused; reserved fields not zero, or a page type other than PT_REG and PT_TCS, is `#GP(0)`; with no `#GP(0)` due, one of bits
5:3 set at the default layout is refused. The refusals are D30 (log 24) and U1, whose place after the `#GP(0)` tests is log 20.
At another layout the mask alone decides (log 20). -/
def Obligations.SecinfoChecked : Prop :=
  ∀ (s : State) (t : Temps), Through5 s t → Pass6 s t →
    (resolve s.input t.laSi .rd = none → RaisesPfWithin s t.laSi 64) ∧
      (∀ pa, resolve s.input t.laSi .rd = some pa → InEpc s pa → exec .encls s = .refused .nonEnclaveOperandInEpc) ∧
      (Pass7 s t → ¬ SecInfoOk s t → RaisesGp s) ∧
      (Pass7 s t → SecInfoOk s t → ¬ OpenBitsClear s.cfg t.si → exec .encls s = .refused .secinfoBits5to3)

/-! ## Checks 9 to 12 -/

/-- R79: the target page not available is the SGX_CONFLICT VM exit with its five values, written to the VMCS, in VMX non-root
operation with ENABLE_EPC_VIRTUALIZATION_EXTENSIONS, and `#GP(0)` otherwise. That the guest-physical address is what Resolve
gives for the target is the model's (DEDUCED, log 42): R79 names the guest's translation without writing it so. -/
def Obligations.BusyTargetExitsOrRaisesGp : Prop :=
  ∀ (s : State) (t : Temps), Through8 s t → targetBusy s.input t.paTgt = true →
    (s.vmxNonRoot = true ∧ s.epcVirtExt = true →
      ∃ v u, exec .encls s = .fault (.vmExit v u) ∧ u.vmcs = v ∧ v.exitReason = .sgxConflict ∧
        v.exitQualificationCode = .epcPageConflictException ∧ v.exitQualificationError = 0 ∧
        v.guestPhysicalAddress = t.paTgt ∧ v.guestLinearAddress = t.laTgt) ∧
      (¬ (s.vmxNonRoot = true ∧ s.epcVirtExt = true) → RaisesGp s)

/-- R80: a valid target page is `#PF(DS:RCX)`. -/
def Obligations.ValidTargetRaisesPf : Prop :=
  ∀ (s : State) (t : Temps), Through8 s t → Pass9 s t → (s.epcmEntry t.paTgt).valid = true →
    RaisesPf s t.laTgt

/-- R81: the SECS not available is `#GP(0)`, with no VM-exit alternative. -/
def Obligations.BusySecsRaisesGp : Prop :=
  ∀ (s : State) (t : Temps), Through10 s t → secsBusy s.input t.paSecs = true → RaisesGp s

/-- R82: a SECS page that is not valid or not of type PT_SECS is `#PF(DS:TMP_SECS)`. (Where the SECS page is the target page,
R59 admits `#GP(0)` as well: `SamePageAsTargetAndSecsFaults`.) -/
def Obligations.InvalidSecsRaisesPf : Prop :=
  ∀ (s : State) (t : Temps), Through10 s t → Pass11 s t → t.paTgt ≠ t.paSecs → ¬ SecsPageOk s t →
    RaisesPf s t.laSecs

/-- R59: target and SECS resolving to the same EPC page always fault: `#PF(DS:RCX)` where the page is valid; where it is not,
`#GP(0)` or `#PF(DS:TMP_SECS)`, either of which the model admits (log 10). -/
def Obligations.SamePageAsTargetAndSecsFaults : Prop :=
  ∀ (s : State) (t : Temps), Through8 s t → Pass9 s t → t.paTgt = t.paSecs →
    ((s.epcmEntry t.paTgt).valid = true → RaisesPf s t.laTgt) ∧
      ((s.epcmEntry t.paTgt).valid = false → RaisesGp s ∨ RaisesPf s t.laSecs)

/-- R53 with Tables 40-8 and 40-9: what can make each of the three resources unavailable. R53 is the spec's derivation; the
model's form of it is log 7. -/
def Obligations.BusyOnlyAsTheTablesAllow : Prop :=
  ∀ (i : StepInput) (pa : Qword),
    (targetBusy i pa = true ↔ i.busyTarget = true ∧
      ∃ o ∈ i.others, ∃ h ∈ o.holds, h.1 = pa ∧ (h.2 = .shared ∨ h.2 = .exclusive)) ∧
      (secsBusy i pa = true ↔ i.busySecs = true ∧
        ∃ o ∈ i.others, (∃ h ∈ o.holds, h.1 = pa ∧ h.2 = .exclusive) ∨
          ((o.leaf = .eadd ∨ o.leaf = .eextend ∨ o.leaf = .einit) ∧ o.secs = some pa)) ∧
      (measureBusy i pa = true ↔ i.busyMeasure = true ∧
        ∃ o ∈ i.others, o.updatingMeasure = true ∧ (o.leaf = .eadd ∨ o.leaf = .eextend ∨ o.leaf = .einit) ∧
          o.secs = some pa)

/-! ## Checks 13 to 17 -/

/-- R83, first part: a source page that cannot be read is `#PF(DS:TMP_SRCPGE)`; inside the EPC it is refused. The refusal is
decision D30 (log 24). -/
def Obligations.UnreadableSourcePage : Prop :=
  ∀ (s : State) (t : Temps), Through12 s t →
    (resolve s.input t.laSrc .rd = none → RaisesPf s t.laSrc) ∧
      (∀ pa, resolve s.input t.laSrc .rd = some pa → InEpc s pa → exec .encls s = .refused .nonEnclaveOperandInEpc)

/-- R84 with R45: a TCS with RESERVED not zero, or, in an enclave that is not 64-bit, with FSLIMIT or GSLIMIT not ending in
twelve ones, is `#GP(0)`; with no `#GP(0)` due, another bit of FLAGS than DBGOPTIN is refused; a regular page with W and not R
is `#GP(0)`. The refusal is U2; its place after every `#GP(0)` of the check is the model's (log 21). -/
def Obligations.PageTypeChecked : Prop :=
  ∀ (s : State) (t : Temps), s.cfg.wf = true → Through13 s t →
    (IsTcs s t → ¬ TcsReservedZero s t.paSrc → RaisesGp s) ∧
      (IsTcs s t → ¬ TcsLimitsOk s t.paSrc t.secs → RaisesGp s) ∧
      (IsTcs s t → PageTypeOk s t → ¬ TcsFlagsOk s t.paSrc → exec .encls s = .refused .tcsFlagsReservedBits) ∧
      (¬ IsTcs s t → t.si.getLsbD s.cfg.secInfo.w = true → t.si.getLsbD s.cfg.secInfo.r = false → RaisesGp s)

/-- R85: LINADDR below BASEADDR, or at or above BASEADDR + SIZE, is `#GP(0)`; a sum that reaches 2^64 is refused, whatever
LINADDR is. The refusal is decision D22; its place before the comparison is the model's (log 22). -/
def Obligations.EnclaveRangeChecked : Prop :=
  ∀ (s : State) (t : Temps), s.cfg.wf = true → Through13 s t → Pass14 s t →
    (2 ^ 64 ≤ t.secs.baseAddr.toNat + t.secs.size.toNat → exec .encls s = .refused .secsRangeOverflow) ∧
      (t.secs.baseAddr.toNat + t.secs.size.toNat < 2 ^ 64 → t.info.linaddr.toNat < t.secs.baseAddr.toNat → RaisesGp s) ∧
      (t.secs.baseAddr.toNat + t.secs.size.toNat < 2 ^ 64 →
        t.secs.baseAddr.toNat + t.secs.size.toNat ≤ t.info.linaddr.toNat → RaisesGp s)

/-- R86: the measurement being updated is `#GP(0)`. -/
def Obligations.BusyMeasurementRaisesGp : Prop :=
  ∀ (s : State) (t : Temps), s.cfg.wf = true → Through15 s t → measureBusy s.input t.paSecs = true → RaisesGp s

/-- R87: an enclave already initialized is `#GP(0)`. -/
def Obligations.InitializedEnclaveRaisesGp : Prop :=
  ∀ (s : State) (t : Temps), s.cfg.wf = true → Through15 s t → Pass16 s t → t.secs.init = true → RaisesGp s

/-- R23: an update counter at the bound the configuration sets is refused. (U15, log 23.) -/
def Obligations.CounterAtBoundRefused : Prop :=
  ∀ (s : State) (t : Temps), s.cfg.wf = true → Through15 s t → Pass16 s t → Pass17 t →
    s.cfg.counterMax = some t.secs.mrcount → exec .encls s = .refused .counterOverflow

/-! ## State after a fault -/

/-- R94, R13: a fault with check 12 or an earlier one failing changes nothing (the model's own count of free values aside);
the VM exit writes the VMCS and nothing else. (Decision D13; log 1, 8.) -/
def Obligations.EarlyFaultsChangeNothing : Prop :=
  ∀ (s : State) (f : Fault), exec .encls s = .fault f → (¬ ∃ t, Through12 s t) →
    (∀ v u, f = .vmExit v u → u = { s with vmcs := v }) ∧
      ((∀ v u, f ≠ .vmExit v u) → { faultState f with draws := s.draws } = s)

/-- R94, R124: a fault after checks 0 to 12 have passed changes nothing but the content of the target page, which is free, and
whose entry stays invalid. (Decision D13; log 9.) -/
def Obligations.LateFaultsChangeOnlyTheTargetPage : Prop :=
  ∀ (s : State) (t : Temps) (f : Fault), Through12 s t → exec .encls s = .fault f →
    SameButPage s (faultState f) t.paTgt ∧ ((faultState f).epcmEntry t.paTgt).valid = false

/-- R93, R107: the order of the checks decides. With the target page busy the outcome is that of check 9, whatever else is wrong
from check 10 on: two states that pass checks 0 to 8 with the same target and the same VMX conditions, and may differ in all
else (EPCM, SECS records, the other BUSY inputs, the translation of the source page), end alike, each with nothing but the VMCS
changed. (Decision D12; log 28.) -/
def Obligations.BusyTargetOutranksLaterChecks : Prop :=
  ∀ (s s' : State) (t t' : Temps), Through8 s t → Through8 s' t' →
    targetBusy s.input t.paTgt = true → targetBusy s'.input t'.paTgt = true →
    t.laTgt = t'.laTgt → t.paTgt = t'.paTgt → s.vmxNonRoot = s'.vmxNonRoot → s.epcVirtExt = s'.epcVirtExt →
    (exec .encls s = .fault (.gp 0 s) ∧ exec .encls s' = .fault (.gp 0 s')) ∨
      ∃ v, exec .encls s = .fault (.vmExit v { s with vmcs := v }) ∧
        exec .encls s' = .fault (.vmExit v { s' with vmcs := v })

/-! ## Completion -/

/-- R70, R83, R89 to R91 (worked example of R70): with every check passed, a page of type PT_REG is added: ENCLS[EADD] goes
on; the target page is a byte-for-byte copy of the source page; its EPCM entry has the attributes of SECINFO, LINADDR and the
SECS identifier, is valid and not blocked, pending or modified; MRENCLAVE is extended by the tag, the enclave offset and 48
bytes of SECINFO, and the counter incremented; RIP is past the instruction. The measured slice is conflict C1 (log 32), that
RIP advances decision D3 (log 18). The entry's other fields, `further`, are unchanged: R21's derivation and the model's choice
(log 33). What the SECS identifier is follows `Cfg.secsId` (D24, log 37). -/
def Obligations.RegularPageIsAdded : Prop :=
  ∀ (s : State) (t : Temps), s.cfg.wf = true → AllPass s t → ¬ IsTcs s t →
    ∃ u, exec .encls s = .next u ∧ u.rip = s.ripPlus s.cfg.ilen ∧
      (∀ k, k < 4096 → u.mem.byte (t.paTgt.toNat + k) = s.mem.byte (t.paSrc.toNat + k)) ∧
      u.epcmEntry t.paTgt =
        { s.epcmEntry t.paTgt with
          valid := true, pt := s.cfg.pageTypes.reg
          r := t.si.getLsbD s.cfg.secInfo.r, w := t.si.getLsbD s.cfg.secInfo.w, x := t.si.getLsbD s.cfg.secInfo.x
          enclaveAddress := t.info.linaddr, enclaveSecs := s.secsIdentifier t.paSecs t.secs
          blocked := false, pending := false, modified := false } ∧
      u.secsRecord? t.paSecs = some
        { t.secs with
          mrenclave := sha256Update s.cfg.sha t.secs.mrenclave
            (t.si.extractLsb' 0 384 ++ (t.info.linaddr - t.secs.baseAddr) ++ 0x0000000044444145#64)
          mrcount := t.secs.mrcount + 1 }

/-- R88, with R89 to R91: with every check passed, a page of type PT_TCS is added: ENCLS[EADD] goes on with R, W and X zero in
the EPCM entry and in what is measured, whatever SECINFO held; CSSA, AEP and STATE of the copy are zero, bit DBGOPTIN of FLAGS
is 0 and every other bit of FLAGS that of the source page, and every other byte is that of the source page. (C1, log 32; D3,
log 18; D38.) The entry's other fields, `further`, are unchanged: R21's derivation and the model's choice (log 33). -/
def Obligations.TcsPageIsAdded : Prop :=
  ∀ (s : State) (t : Temps) (si : BitVec 512), s.cfg.wf = true → AllPass s t → IsTcs s t →
    (∀ i, i < 512 → si.getLsbD i =
      (t.si.getLsbD i && decide (i ≠ s.cfg.secInfo.r ∧ i ≠ s.cfg.secInfo.w ∧ i ≠ s.cfg.secInfo.x))) →
    ∃ u, exec .encls s = .next u ∧ u.rip = s.ripPlus s.cfg.ilen ∧
      (∀ f ∈ [s.cfg.tcs.state, s.cfg.tcs.cssa, s.cfg.tcs.aep], ∀ k, k < f.size →
        u.mem.byte (t.paTgt.toNat + f.off + k) = 0) ∧
      (readField u.mem t.paTgt s.cfg.tcs.flags).testBit s.cfg.tcs.dbgoptin = false ∧
      (∀ i, i ≠ s.cfg.tcs.dbgoptin →
        (readField u.mem t.paTgt s.cfg.tcs.flags).testBit i = (readField s.mem t.paSrc s.cfg.tcs.flags).testBit i) ∧
      (∀ k, k < 4096 →
        (∀ f ∈ [s.cfg.tcs.state, s.cfg.tcs.flags, s.cfg.tcs.cssa, s.cfg.tcs.aep], k < f.off ∨ f.off + f.size ≤ k) →
        u.mem.byte (t.paTgt.toNat + k) = s.mem.byte (t.paSrc.toNat + k)) ∧
      u.epcmEntry t.paTgt =
        { s.epcmEntry t.paTgt with
          valid := true, pt := s.cfg.pageTypes.tcs, r := false, w := false, x := false
          enclaveAddress := t.info.linaddr, enclaveSecs := s.secsIdentifier t.paSecs t.secs
          blocked := false, pending := false, modified := false } ∧
      u.secsRecord? t.paSecs = some
        { t.secs with
          mrenclave := sha256Update s.cfg.sha t.secs.mrenclave
            (si.extractLsb' 0 384 ++ (t.info.linaddr - t.secs.baseAddr) ++ 0x0000000044444145#64)
          mrcount := t.secs.mrcount + 1 }

/-- R90: with every check passed ENCLS[EADD] goes on, and the ten fields of the target's EPCM entry are R, W and X of SECINFO
(0, 0, 0 for a TCS page), the page type, the full LINADDR, the identifier of the SECS, BLOCKED, PENDING and MODIFIED 0, and
VALID 1; no other EPCM entry, that of the SECS among them, changes. That the entry's other fields, `further`, are unchanged is
R21's derivation and the model's choice (DESIGN CHOICE, log 33). -/
def Obligations.EpcmEntryIsWritten : Prop :=
  ∀ (s : State) (t : Temps), s.cfg.wf = true → AllPass s t →
    ∃ u, exec .encls s = .next u ∧
      u.epcmEntry t.paTgt =
        { s.epcmEntry t.paTgt with
          valid := true, pt := PtOf s.cfg t.si
          r := decide (¬ IsTcs s t) && t.si.getLsbD s.cfg.secInfo.r
          w := decide (¬ IsTcs s t) && t.si.getLsbD s.cfg.secInfo.w
          x := decide (¬ IsTcs s t) && t.si.getLsbD s.cfg.secInfo.x
          enclaveAddress := t.info.linaddr, enclaveSecs := s.secsIdentifier t.paSecs t.secs
          blocked := false, pending := false, modified := false } ∧
      (∀ p, p ≠ t.paTgt → u.epcmEntry p = s.epcmEntry p) ∧ t.paSecs ≠ t.paTgt

/-- R20, R22, D24: where the configuration takes R6's default for the identifier of a SECS, ENCLAVESECS of the added page is the
physical address of the SECS page. (Log 37.) -/
def Obligations.EnclaveSecsIsTheSecsPage : Prop :=
  ∀ (s : State) (t : Temps), s.cfg.wf = true → AllPass s t → s.cfg.secsId = .pageAddress →
    ∃ u, exec .encls s = .next u ∧ (u.epcmEntry t.paTgt).enclaveSecs = t.paSecs

/-- R121 with the premise of R54: with the operands in place, the SECS valid and not initialized, the target free, the page's
contents and address acceptable, and no other agent executing an SGX leaf on the target page or the SECS, EADD goes on,
whatever the three BUSY inputs say. The last clause is the model's: R54 says that the inputs are false under its premise, and an
input counts in the model only where a leaf in progress allows it (DEDUCED, log 7). -/
def Obligations.PreconditionsSuffice : Prop :=
  ∀ (s : State) (t : Temps), s.cfg.wf = true → Through8 s t → Pass10 s t → Pass12 s t → Pass13 s t → Pass14 s t → Pass15 t →
    Pass17 t → CounterFree s t → NoConflict s t → ∃ u, exec .encls s = .next u

/-- R70, R93: an execution goes on exactly when there are temporaries with which every check passes. What passes here is more
than R93's checks: the situations the model refuses (SECINFO bits 5:3, TCS.FLAGS, a range end of 2^64, the counter's bound, an
operand in the EPC, a missing SECS record: log 20 to 25; upper halves, leaf and SGX1: log 19, 26) count as failing. -/
def Obligations.GoesOnExactlyWhenEveryCheckPasses : Prop :=
  ∀ s : State, s.cfg.wf = true → ((∃ u, exec .encls s = .next u) ↔ ∃ t, AllPass s t)

/-! ## Frame -/

/-- R10, R12, R14, R26, R90: the frame of ENCLS[EADD] when it goes on. With `o` what `eaddOperands` computes from the state
(the target page o.paTgt, the SECS page o.paSecs): no general register, flag, privilege, mode, segment, VMX or VMCS state,
nothing of the configuration, inputs, program text or count of free values changes; no byte of memory outside the 4096 bytes
of the target page; no EPCM entry but the target's; no SECS record but that at o.paSecs, and of it only MRENCLAVE and the
counter. -/
def Obligations.FrameOfEadd : Prop :=
  ∀ (s u : State), s.cfg.wf = true → exec .encls s = .next u →
    u.regs = s.regs ∧ u.rflags = s.rflags ∧ u.cpl = s.cpl ∧ u.mode = s.mode ∧ u.ds = s.ds ∧ u.vmxNonRoot = s.vmxNonRoot ∧
      u.epcVirtExt = s.epcVirtExt ∧ u.vmcs = s.vmcs ∧ u.cfg = s.cfg ∧ u.input = s.input ∧ u.upcoming = s.upcoming ∧
      u.text = s.text ∧ u.draws = s.draws ∧
      ∀ o, eaddOperands s = .ok o →
        (∀ a, a < o.paTgt.toNat ∨ o.paTgt.toNat + 4096 ≤ a → u.mem.byte a = s.mem.byte a) ∧
          (∀ p, p ≠ o.paTgt → u.epcmEntry p = s.epcmEntry p) ∧
          (∀ p, p ≠ o.paSecs → u.secsRecord? p = s.secsRecord? p) ∧
          ∃ r r', s.secsRecord? o.paSecs = some r ∧ u.secsRecord? o.paSecs = some r' ∧
            { r' with mrenclave := r.mrenclave, mrcount := r.mrcount } = r

/-- R12: every general register holds after a fault, a VM exit or a successful execution the value it held before. (R12 is the
spec's derivation.) -/
def Obligations.RegistersNeverWritten : Prop :=
  ∀ s : State, (∀ u, exec .encls s = .next u → u.regs = s.regs) ∧
    (∀ f, exec .encls s = .fault f → (faultState f).regs = s.regs)

/-- R14: no flag is read or written, on any path: with other flags the execution is the same, the flags apart. -/
def Obligations.FlagsNeitherReadNorWritten : Prop :=
  ∀ (s : State) (v : Qword),
    exec .encls { s with rflags := v } = mapOutcome (fun u => { u with rflags := v }) (exec .encls s) ∧
      (∀ u, exec .encls s = .next u → u.rflags = s.rflags) ∧
      (∀ f, exec .encls s = .fault f → (faultState f).rflags = s.rflags)

/-- R11, R60: of the general registers only EAX, RBX and RCX matter: RAX[63:32] and every other register may hold anything. That
RAX[63:32] is ignored is decision D6 of the spec, which calls it "toward proving" (log 44). -/
def Obligations.OnlyOperandRegistersMatter : Prop :=
  ∀ (s : State) (g : Regs), g.rbx = s.regs.rbx → g.rcx = s.regs.rcx →
    g.rax.toNat % 2 ^ 32 = s.regs.rax.toNat % 2 ^ 32 →
    exec .encls { s with regs := g } = mapOutcome (fun u => { u with regs := g }) (exec .encls s)

/-! ## Invariants and whole-machine rules -/

/-- Every step keeps memory, EPCM, SECS records and program text in canonical form. The form is the model's (log 31, 35). -/
def Obligations.StepKeepsListsCanonical : Prop :=
  ∀ s u : State, ListsCanonical s → step s = .next u → ListsCanonical u

/-- Every step keeps the EPC's metadata sound: PT of an entry is as wide as that of SECINFO (R20, log 45), valid pages are EPC
pages, every valid SECS page has a record, different SECS have different identifiers (D24, log 37), TCS pages have no access
rights, writable regular pages are readable, and every page lies in the range of the enclave it belongs to. -/
def Obligations.StepKeepsEpcSound : Prop :=
  ∀ s u : State, EpcSound s → step s = .next u → EpcSound u

/-- The state after reset is canonical and sound, with every EPCM entry invalid (R28: GK18), no SECS record, CPL 0 and the VMX
conditions off; these reset values are general knowledge in R28 (log 13, 14). -/
def Obligations.ResetIsSound : Prop :=
  ListsCanonical State.reset ∧ EpcSound State.reset ∧ State.reset.cpl = 0 ∧ State.reset.vmxNonRoot = false ∧
    State.reset.epcVirtExt = false ∧
    ∀ pa, (State.reset.epcmEntry pa).valid = false ∧ State.reset.secsRecord? pa = none

/-- R14 to R18, with R6 and R29: no step that goes on changes the flags, CPL, mode, DS, the VMX conditions or the VMCS (log 43), nor
the configuration and the program text, which R6 and R29 make parameters of the run and the model keeps in State (log 4, 16). The
VM exit, which writes the VMCS (R18, R79), is a terminal outcome and no such step. -/
def Obligations.StepKeepsFixture : Prop :=
  ∀ s u : State, step s = .next u → SameFixture s u

/-- Isolation of valid pages: no step that goes on changes the EPCM entry or a byte of an EPC page that is already valid. -/
def Obligations.ValidPagesAreNeverTouched : Prop :=
  ∀ (s u : State) (pa : Qword), s.cfg.wf = true → pa.toNat % 4096 = 0 → (s.epcmEntry pa).valid = true → step s = .next u →
    u.epcmEntry pa = s.epcmEntry pa ∧ ∀ k, k < 4096 → u.mem.byte (pa.toNat + k) = s.mem.byte (pa.toNat + k)

/-- R26: "The leaf writes no byte outside the EPC": no step that goes on changes a byte
of a page that is not in the EPC. -/
def Obligations.NoByteOutsideEpcIsWritten : Prop :=
  ∀ (s u : State) (a : Nat), s.cfg.wf = true → a < 2 ^ 64 → ¬ InEpc s (BitVec.ofNat 64 a) → step s = .next u →
    u.mem.byte a = s.mem.byte a

/-- R87 for the machine: no step that goes on changes the SECS record of an initialized enclave. -/
def Obligations.InitializedEnclaveIsFrozen : Prop :=
  ∀ (s u : State) (ps : Qword) (r : Secs), s.cfg.wf = true → s.secsRecord? ps = some r → r.init = true → step s = .next u →
    u.secsRecord? ps = some r

/-- R95, R80: adding the same target page twice: after an execution that went on, executing again with the operands as they
are is `#PF(DS:RCX)`. -/
def Obligations.AddingTwiceRaisesPf : Prop :=
  ∀ (s u : State) (t : Temps), s.cfg.wf = true → AllPass s t → exec .encls s = .next u → RaisesPf u t.laTgt

/-- R89: the content of the page is not measured: two states that agree on PAGEINFO, SECINFO, the SECS record and the choice
of SHA256UPDATE get the same MRENCLAVE and counter, whatever their source pages, addresses and other state. -/
def Obligations.ContentIsNotMeasured : Prop :=
  ∀ (s s' u u' : State) (t t' : Temps), s.cfg.wf = true → s'.cfg.wf = true → AllPass s t → AllPass s' t' →
    t.info.linaddr = t'.info.linaddr → t.si = t'.si → t.secs = t'.secs → s.cfg.secInfo = s'.cfg.secInfo →
    s.cfg.pageTypes = s'.cfg.pageTypes → s.cfg.sha = s'.cfg.sha →
    exec .encls s = .next u → exec .encls s' = .next u' →
    u.secsRecord? t.paSecs = u'.secsRecord? t'.paSecs

/-! ## Memory and arithmetic -/

/-- R35, R37: a value read from memory is little-endian: its byte k is the byte at offset k. (Decision D14, log 36.) -/
def Obligations.MemoryReadsLittleEndian : Prop :=
  ∀ (m : Memory) (a n k : Nat), k < n → m.readNat a n / 256 ^ k % 256 = (m.byte (a + k)).toNat ∧ m.readNat a n < 256 ^ n

/-- R35, R37: a value written to memory is little-endian, and no other byte changes. (Decision D14, log 36.) -/
def Obligations.MemoryWritesLittleEndian : Prop :=
  ∀ (m : Memory) (a n v x : Nat),
    ((m.writeNat a n v).byte x).toNat =
      if a ≤ x ∧ x < a + n then v / 256 ^ (x - a) % 256 else (m.byte x).toNat

/-- R32: with a 48-bit canonical width, an address is canonical exactly when it is below 2^47 or at least 2^64 - 2^47. The
width 48 is the spec's general knowledge (log 39). -/
def Obligations.CanonicalAddressesAreTheTwoHalves : Prop :=
  ∀ ea : Qword, canonical 48 ea = true ↔ ea.toNat < 2 ^ 47 ∨ 2 ^ 64 - 2 ^ 47 ≤ ea.toNat

/-- R7, R89 (S1, M1 of spec/95_test_vectors.md): the measured block of the worked example of R70 is, in byte order, 45 41 44
44 0 0 0 0, 00 10 0 0 0 0 0 0, 03 02, then zeros. -/
def Obligations.MeasuredBlockOfTheWorkedExample : Prop :=
  (List.range 64).map (fun k => (updateField 0x1000#64 0x203#512).extractLsb' (8 * k) 8) =
    [0x45, 0x41, 0x44, 0x44, 0, 0, 0, 0, 0x00, 0x10, 0, 0, 0, 0, 0, 0, 0x03, 0x02] ++ List.replicate 46 0

/-- R92 (spec/95_test_vectors.md 3.6): the recommended SHA256UPDATE gives the digest of "abc" on its padded block, and M1. The
choice is decision D20 (log 11). -/
def Obligations.ShaUpdateVectors : Prop :=
  sha256Update .fips180 Sha256.initial (0x80636261#512 ||| 0x18#512 <<< 504) =
      ⟨0xba7816bf, 0x8f01cfea, 0x414140de, 0x5dae2223, 0xb00361a3, 0x96177a9c, 0xb410ff61, 0xf20015ad⟩ ∧
    sha256Update .fips180 Sha256.initial (updateField 0x1000#64 0x203#512) =
      ⟨0x4a3e6716, 0x3ac55fff, 0xbe4335f3, 0xc674129b, 0x18b2cff6, 0x865ae247, 0x8435d8c2, 0xd2be5872⟩
end

