-- ==== Sys2Proof/Laws/Memory.lean ====
section
/-! SUPPORT. Keyed lists, memory and byte order: read after write, and every operation keeps the canonical form. -/

namespace Sys2Proof.Machine

/-! ## Looking up in a keyed list -/

section Find

variable {α : Type}

@[simp] theorem find?_nil (k : Nat) : find? ([] : List (Nat × α)) k = none := rfl

theorem find?_cons (c : Nat × α) (m : List (Nat × α)) (k : Nat) :
    find? (c :: m) k = if c.1 = k then some c.2 else find? m k := rfl

theorem find?_append (m₁ m₂ : List (Nat × α)) (k : Nat) :
    find? (m₁ ++ m₂) k = (find? m₁ k).or (find? m₂ k) := by
  induction m₁ with
  | nil => simp
  | cons c m ih => by_cases h : c.1 = k <;> simp [find?_cons, h, ih]

theorem find?_eq_none_iff (m : List (Nat × α)) (k : Nat) : find? m k = none ↔ ∀ c ∈ m, c.1 ≠ k := by
  induction m with
  | nil => simp
  | cons c m ih => by_cases h : c.1 = k <;> simp [find?_cons, h, ih]

theorem mem_of_find? {m : List (Nat × α)} {k : Nat} {v : α} (h : find? m k = some v) : (k, v) ∈ m := by
  induction m with
  | nil => simp at h
  | cons c m ih =>
    rw [find?_cons] at h
    split at h
    · next hc => obtain rfl := hc; obtain rfl := Option.some.inj h; simp
    · exact List.mem_cons_of_mem _ (ih h)

/-- Keeping the cells whose key satisfies `p` keeps what is found under such a key and nothing else. -/
theorem find?_filter (p : Nat → Bool) (m : List (Nat × α)) (k : Nat) :
    find? (m.filter fun c => p c.1) k = if p k then find? m k else none := by
  induction m with
  | nil => simp
  | cons c m ih =>
    by_cases hk : c.1 = k <;> by_cases hp : p c.1 <;> simp_all [find?_cons]

/-- Moving every key by an injective function moves what is found. -/
theorem find?_map_key (f : Nat → Nat) (m : List (Nat × α)) (k j : Nat) (hf : ∀ c ∈ m, f c.1 = k ↔ c.1 = j) :
    find? (m.map fun c => (f c.1, c.2)) k = find? m j := by
  induction m with
  | nil => rfl
  | cons c m ih =>
    have hc := hf c (by simp)
    have hm := ih fun d hd => hf d (List.mem_cons_of_mem _ hd)
    by_cases h : c.1 = j
    · rw [List.map_cons, find?_cons, find?_cons, if_pos (hc.mpr h), if_pos h]
    · have : ¬ f c.1 = k := fun e => h (hc.mp e)
      simp [find?_cons, h, this, hm]

/-- What is found after a splice: under the spliced keys what the cells hold, elsewhere what was there. -/
theorem find?_splice (m cells : List (Nat × α)) (lo n k : Nat) (hc : ∀ c ∈ cells, lo ≤ c.1 ∧ c.1 < lo + n) :
    find? (splice m lo n cells) k = if lo ≤ k ∧ k < lo + n then find? cells k else find? m k := by
  have hbelow := find?_filter (fun a => decide (a < lo)) m k
  have habove := find?_filter (fun a => decide (lo + n ≤ a)) m k
  rw [splice, find?_append, find?_append, hbelow, habove]
  by_cases h : lo ≤ k ∧ k < lo + n
  · have h1 : ¬ k < lo := by omega
    have h2 : ¬ lo + n ≤ k := by omega
    simp [h, h1, h2]
  · have hout : find? cells k = none := (find?_eq_none_iff _ _).mpr fun c hm e => by
      have := hc c hm
      omega
    by_cases h1 : k < lo
    · have h2 : ¬ lo + n ≤ k := by omega
      rw [if_neg h, hout]
      simp [h1, h2]
    · have h2 : lo + n ≤ k := by omega
      simp [h, h1, h2, hout]

@[simp] theorem find?_put_self (m : List (Nat × α)) (k : Nat) (v : α) : find? (put m k v) k = some v := by
  rw [put, find?_splice _ _ _ _ _ (by simp)]
  simp [find?_cons]

theorem find?_put_of_ne (m : List (Nat × α)) {k j : Nat} (v : α) (h : j ≠ k) : find? (put m k v) j = find? m j := by
  rw [put, find?_splice _ _ _ _ _ (by simp)]
  exact if_neg (by omega)

@[simp] theorem find?_remove_self (m : List (Nat × α)) (k : Nat) : find? (remove m k) k = none := by
  rw [remove, find?_splice _ _ _ _ _ (by simp)]
  simp

theorem find?_remove_of_ne (m : List (Nat × α)) {k j : Nat} (h : j ≠ k) : find? (remove m k) j = find? m j := by
  rw [remove, find?_splice _ _ _ _ _ (by simp)]
  exact if_neg (by omega)

end Find

/-! ## The canonical order -/

section Order

variable {α : Type}

theorem keysRising_iff (m : List (Nat × α)) : keysRising m = true ↔ m.Pairwise fun a b => a.1 < b.1 := by
  induction m with
  | nil => simp [keysRising]
  | cons a m ih =>
    cases m with
    | nil => simp [keysRising]
    | cons b m =>
      simp only [keysRising, Bool.and_eq_true, decide_eq_true_eq, ih, List.pairwise_cons, List.mem_cons, forall_eq_or_imp]
      constructor
      · rintro ⟨h, h1, h2⟩
        exact ⟨⟨h, fun c hc => Nat.lt_trans h (h1 c hc)⟩, h1, h2⟩
      · rintro ⟨⟨h, -⟩, h1, h2⟩
        exact ⟨h, h1, h2⟩

/-- A splice keeps the canonical order when its cells are in it and inside the spliced keys. -/
theorem keysRising_splice {m cells : List (Nat × α)} {lo n : Nat} (hm : keysRising m = true)
    (hc : keysRising cells = true) (hr : ∀ c ∈ cells, lo ≤ c.1 ∧ c.1 < lo + n) :
    keysRising (splice m lo n cells) = true := by
  rw [keysRising_iff] at *
  rw [splice, List.pairwise_append, List.pairwise_append]
  refine ⟨hm.filter _, ⟨hc, hm.filter _, ?_⟩, ?_⟩
  · intro a ha b hb
    simp only [List.mem_filter, decide_eq_true_eq] at hb
    have := hr a ha
    omega
  · intro a ha b hb
    simp only [List.mem_filter, List.mem_append, decide_eq_true_eq] at ha hb
    rcases hb with hb | hb
    · have := hr b hb
      omega
    · omega

theorem keysRising_put {m : List (Nat × α)} (hm : keysRising m = true) (k : Nat) (v : α) :
    keysRising (put m k v) = true :=
  keysRising_splice hm (by simp [keysRising]) (by simp)

theorem keysRising_remove {m : List (Nat × α)} (hm : keysRising m = true) (k : Nat) :
    keysRising (remove m k) = true :=
  keysRising_splice hm (by simp [keysRising]) (by simp)

theorem mem_splice {m cells : List (Nat × α)} {lo n : Nat} {c : Nat × α} (h : c ∈ splice m lo n cells) :
    c ∈ cells ∨ c ∈ m := by
  simp only [splice, List.mem_append, List.mem_filter] at h
  tauto

end Order

/-! ## Bytes of memory -/

namespace Memory

@[simp] theorem byte_nil (a : Nat) : byte [] a = 0 := rfl

theorem wf_iff (m : Memory) : m.wf = true ↔ keysRising m = true ∧ ∀ c ∈ m, c.2 ≠ unlisted := by
  simp [wf, List.all_eq_true]

theorem cells_range (a : Nat) (bs : List Byte) : ∀ c ∈ cells a bs, a ≤ c.1 ∧ c.1 < a + bs.length := by
  induction bs generalizing a with
  | nil => simp [cells]
  | cons b bs ih =>
    intro c hc
    rw [cells] at hc
    have step : ∀ d ∈ cells (a + 1) bs, a ≤ d.1 ∧ d.1 < a + (b :: bs).length := fun d hd => by
      have := ih (a + 1) d hd
      simp only [List.length_cons]
      omega
    split at hc
    · exact step c hc
    · rcases List.mem_cons.mp hc with rfl | hc
      · simp
      · exact step c hc

theorem cells_wf (a : Nat) (bs : List Byte) : wf (cells a bs) = true := by
  induction bs generalizing a with
  | nil => rfl
  | cons b bs ih =>
    rw [cells]
    split
    · exact ih _
    · next hb =>
      have h := (wf_iff _).mp (ih (a + 1))
      rw [wf_iff, keysRising_iff, List.pairwise_cons]
      refine ⟨⟨fun c hc => ?_, (keysRising_iff _).mp h.1⟩, ?_⟩
      · have := cells_range (a + 1) bs c hc
        simp only
        omega
      · simpa [hb] using h.2

/-- A byte of the cells of consecutive bytes. -/
theorem byte_cells (a : Nat) (bs : List Byte) (k : Nat) : byte (cells a bs) (a + k) = bs.getD k 0 := by
  induction bs generalizing a k with
  | nil => simp [cells]
  | cons b bs ih =>
    have hnone : find? (cells (a + 1) bs) a = none := (find?_eq_none_iff _ _).mpr fun c hc e => by
      have := cells_range (a + 1) bs c hc
      omega
    cases k with
    | zero =>
      rw [cells]
      split
      · next hb => simp [byte, hnone, hb]
      · simp [byte, find?_cons]
    | succ k =>
      have h := ih (a + 1) k
      have e : a + (k + 1) = a + 1 + k := by omega
      rw [cells, e]
      split
      · simpa using h
      · have hne : ¬ a = a + 1 + k := by omega
        simp only [byte, find?_cons, hne, if_false] at h ⊢
        simpa using h

/-- A write changes the bytes written and no other. -/
theorem byte_writeBytes (m : Memory) (a : Nat) (bs : List Byte) (x : Nat) :
    byte (m.writeBytes a bs) x = if a ≤ x ∧ x < a + bs.length then bs.getD (x - a) 0 else byte m x := by
  rw [byte, writeBytes, find?_splice _ _ _ _ _ (cells_range a bs)]
  split
  · next h =>
    have := byte_cells a bs (x - a)
    rw [byte, show a + (x - a) = x by omega] at this
    exact this
  · rfl

theorem writeBytes_wf {m : Memory} (h : m.wf = true) (a : Nat) (bs : List Byte) : (m.writeBytes a bs).wf = true := by
  obtain ⟨h1, h2⟩ := (wf_iff _).mp h
  obtain ⟨c1, c2⟩ := (wf_iff _).mp (cells_wf a bs)
  refine (wf_iff _).mpr ⟨keysRising_splice h1 c1 (cells_range a bs), fun c hc => ?_⟩
  rcases mem_splice hc with hc | hc
  · exact c2 c hc
  · exact h2 c hc

@[simp] theorem length_leBytes (n v : Nat) : (leBytes n v).length = n := by
  induction n generalizing v with
  | zero => rfl
  | succ n ih => simp [leBytes, ih]

theorem writeNat_wf {m : Memory} (h : m.wf = true) (a n v : Nat) : (m.writeNat a n v).wf = true :=
  writeBytes_wf h _ _

/-- Bytes outside a written value are as before. -/
theorem byte_writeNat_of_outside (m : Memory) {a n x : Nat} (v : Nat) (h : x < a ∨ a + n ≤ x) :
    byte (m.writeNat a n v) x = byte m x := by
  rw [writeNat, byte_writeBytes, length_leBytes, if_neg (by omega)]

theorem getD_leBytes_zero (n k : Nat) : (leBytes n 0).getD k 0 = 0 := by
  induction n generalizing k with
  | zero => simp [leBytes]
  | succ n ih => cases k <;> simp_all [leBytes]

/-- Bytes of a value written as zero are zero. -/
theorem byte_writeNat_zero (m : Memory) {a n x : Nat} (h : a ≤ x) (h' : x < a + n) : byte (m.writeNat a n 0) x = 0 := by
  rw [writeNat, byte_writeBytes, length_leBytes, if_pos ⟨h, h'⟩, getD_leBytes_zero]

theorem length_readBytes (m : Memory) (a n : Nat) : (m.readBytes a n).length = n := by
  induction n generalizing a with
  | zero => rfl
  | succ n ih => simp [readBytes, ih]

/-- Two memories that agree on the bytes read give the same value. -/
theorem readNat_congr {m m' : Memory} {a a' n : Nat} (h : ∀ k, k < n → byte m (a + k) = byte m' (a' + k)) :
    m.readNat a n = m'.readNat a' n := by
  have : m.readBytes a n = m'.readBytes a' n := by
    induction n generalizing a a' with
    | zero => rfl
    | succ n ih =>
      have hrest : m.readBytes (a + 1) n = m'.readBytes (a' + 1) n := ih fun k hk => by
        have := h (k + 1) (by omega)
        rwa [show a + (k + 1) = a + 1 + k by omega, show a' + (k + 1) = a' + 1 + k by omega] at this
      have hfirst : byte m a = byte m' a' := by simpa using h 0 (by omega)
      rw [readBytes, readBytes, hfirst, hrest]
  rw [readNat, readNat, this]

theorem readNat_lt (m : Memory) (a n : Nat) : m.readNat a n < 256 ^ n := by
  rw [readNat]
  induction n generalizing a with
  | zero => simp [readBytes, leNat]
  | succ n ih =>
    have h := ih (a + 1)
    have hb := (byte m a).isLt
    simp only [readBytes, leNat, Nat.pow_succ]
    omega

/-! ## Pages -/

/-- Byte k of a page image is the byte at offset k of the page. -/
theorem byte_page (m : Memory) (pa k : Nat) : byte (m.page pa) k = if k < 4096 then byte m (pa + k) else 0 := by
  have hf := find?_filter (fun a => decide (pa ≤ a) && decide (a < pa + 4096)) m (pa + k)
  rw [byte, page, find?_map_key (fun a => a - pa) _ k (pa + k) fun c hc => ?_]
  · rw [hf]
    by_cases h : k < 4096
    · simp [h, byte]
    · simp [h, unlisted]
  · simp only [List.mem_filter, Bool.and_eq_true, decide_eq_true_eq] at hc
    omega

theorem page_range (m : Memory) (pa : Nat) : ∀ c ∈ m.page pa, c.1 < 4096 := by
  intro c hc
  simp only [page, List.mem_map, List.mem_filter, Bool.and_eq_true, decide_eq_true_eq] at hc
  obtain ⟨d, ⟨-, h1, h2⟩, rfl⟩ := hc
  simp only
  omega

theorem page_wf {m : Memory} (h : m.wf = true) (pa : Nat) : (m.page pa).wf = true := by
  obtain ⟨h1, h2⟩ := (wf_iff _).mp h
  rw [keysRising_iff] at h1
  refine (wf_iff _).mpr ⟨?_, fun c hc => ?_⟩
  · rw [keysRising_iff, page, List.pairwise_map]
    refine (h1.filter _).imp_of_mem fun {a b} ha hb hab => ?_
    simp only [List.mem_filter, Bool.and_eq_true, decide_eq_true_eq] at ha hb
    simp only
    omega
  · simp only [page, List.mem_map, List.mem_filter] at hc
    obtain ⟨d, ⟨hd, -⟩, rfl⟩ := hc
    exact h2 d hd

theorem freePage_range (n : Nat) : ∀ c ∈ freePage n, c.1 < 4096 := by
  intro c hc
  have := cells_range 0 _ c hc
  simp only [List.length_map, List.length_range] at this
  omega

theorem freePage_wf (n : Nat) : (freePage n).wf = true :=
  cells_wf _ _

/-- Storing a page image changes the 4096 bytes of the page and no other. -/
theorem byte_putPage (m : Memory) (pa : Nat) {p : Memory} (hp : ∀ c ∈ p, c.1 < 4096) (x : Nat) :
    byte (m.putPage pa p) x = if pa ≤ x ∧ x < pa + 4096 then byte p (x - pa) else byte m x := by
  rw [byte, putPage, find?_splice _ _ _ _ _ fun c hc => ?_]
  · split
    · rw [find?_map_key (fun a => pa + a) p x (x - pa) fun c _ => by omega]
      rfl
    · rfl
  · simp only [List.mem_map] at hc
    obtain ⟨d, hd, rfl⟩ := hc
    have := hp d hd
    simp only
    omega

theorem putPage_wf {m p : Memory} (h : m.wf = true) (hp : p.wf = true) (hr : ∀ c ∈ p, c.1 < 4096) (pa : Nat) :
    (m.putPage pa p).wf = true := by
  obtain ⟨h1, h2⟩ := (wf_iff _).mp h
  obtain ⟨p1, p2⟩ := (wf_iff _).mp hp
  have hmap : ∀ c ∈ p.map (fun c : Host.Cell => (pa + c.1, c.2)), pa ≤ c.1 ∧ c.1 < pa + 4096 := by
    intro c hc
    simp only [List.mem_map] at hc
    obtain ⟨d, hd, rfl⟩ := hc
    have := hr d hd
    simp only
    omega
  refine (wf_iff _).mpr ⟨keysRising_splice h1 ?_ hmap, fun c hc => ?_⟩
  · rw [keysRising_iff] at p1 ⊢
    rw [List.pairwise_map]
    exact p1.imp fun hab => by simpa using hab
  · rcases mem_splice hc with hc | hc
    · simp only [List.mem_map] at hc
      obtain ⟨d, hd, rfl⟩ := hc
      exact p2 d hd
    · exact h2 c hc

end Memory

/-! ## Fields of a structure in the EPC -/

theorem writeField_wf {m : Memory} (h : m.wf = true) (pa : Qword) (f : Field) (v : Nat) : (writeField m pa f v).wf = true :=
  Memory.writeNat_wf h _ _ _

theorem byte_writeField_of_outside (m : Memory) (pa : Qword) (f : Field) (v : Nat) {x : Nat}
    (h : x < pa.toNat + f.off ∨ pa.toNat + f.off + f.size ≤ x) :
    (writeField m pa f v).byte x = m.byte x :=
  Memory.byte_writeNat_of_outside m v h

theorem byte_writeField_zero (m : Memory) (pa : Qword) (f : Field) {x : Nat} (h : pa.toNat + f.off ≤ x)
    (h' : x < pa.toNat + f.off + f.size) : (writeField m pa f 0).byte x = 0 :=
  Memory.byte_writeNat_zero m h h'

/-- The forcing of a TCS page writes only inside the page. -/
theorem byte_forceTcs_of_outside (l : TcsLayout) (pa : Qword) (m : Memory) {x : Nat}
    (hl : l.state.off + l.state.size ≤ 4096 ∧ l.flags.off + l.flags.size ≤ 4096 ∧ l.cssa.off + l.cssa.size ≤ 4096 ∧
      l.aep.off + l.aep.size ≤ 4096)
    (h : x < pa.toNat ∨ pa.toNat + 4096 ≤ x) : (forceTcs l pa m).byte x = m.byte x := by
  rw [forceTcs, byte_writeField_of_outside _ _ _ _ (by omega), byte_writeField_of_outside _ _ _ _ (by omega),
    byte_writeField_of_outside _ _ _ _ (by omega), byte_writeField_of_outside _ _ _ _ (by omega)]

theorem forceTcs_wf (l : TcsLayout) (pa : Qword) {m : Memory} (h : m.wf = true) : (forceTcs l pa m).wf = true :=
  writeField_wf (writeField_wf (writeField_wf (writeField_wf h _ _ _) _ _ _) _ _ _) _ _ _

/-- The mask test of a page image is a test of every byte under the mask. -/
theorem maskClear_iff (p : Memory) (mask : List ByteMask) :
    maskClear p mask = true ↔ ∀ r ∈ mask, ∀ k, r.off ≤ k → k < r.off + r.len → p.byte k &&& r.bits = 0 := by
  simp only [maskClear, List.all_eq_true, Bool.or_eq_true, Bool.not_eq_true', Bool.and_eq_false_iff, decide_eq_false_iff_not,
    beq_iff_eq]
  constructor
  · intro h r hr k h1 h2
    by_cases hk : find? p k = none
    · simp [Memory.byte, hk, Memory.unlisted]
    · obtain ⟨v, hv⟩ := Option.ne_none_iff_exists'.mp hk
      rcases h _ (mem_of_find? hv) r hr with (h' | h') | h'
      · exact absurd h1 h'
      · exact absurd h2 h'
      · exact h'
  · intro h c _ r hr
    by_cases h1 : r.off ≤ c.1
    · by_cases h2 : c.1 < r.off + r.len
      · exact .inr (h r hr _ h1 h2)
      · exact .inl (.inr h2)
    · exact .inl (.inl h1)

/-- Clearing DBGOPTIN clears that bit of FLAGS and keeps every other (spec/40_encls_eadd.md R88). -/
theorem testBit_clearDbgoptin (l : TcsLayout) (v i : Nat) :
    (clearDbgoptin l v).testBit i = (v.testBit i && decide (i ≠ l.dbgoptin)) := by
  rw [clearDbgoptin]
  by_cases hi : i = l.dbgoptin
  · subst hi
    split <;> simp_all
  · have : ¬ l.dbgoptin = i := fun e => hi e.symm
    split <;> simp [hi, this]

/-- DBGOPTIN is the only bit of FLAGS exactly when clearing it leaves nothing. -/
theorem clearDbgoptin_eq_zero_iff (l : TcsLayout) (v : Nat) : clearDbgoptin l v = 0 ↔ v = 0 ∨ v = 2 ^ l.dbgoptin := by
  constructor
  · intro h
    rw [clearDbgoptin] at h
    split at h
    · exact .inr (Nat.xor_eq_zero_iff.mp h)
    · exact .inl h
  · rintro (rfl | rfl) <;> simp [clearDbgoptin]

/-- Clearing DBGOPTIN keeps FLAGS in its width. -/
theorem clearDbgoptin_lt (l : TcsLayout) {v n : Nat} (h : v < 2 ^ n) : clearDbgoptin l v < 2 ^ n := by
  refine Nat.lt_pow_two_of_testBit _ fun i hi => ?_
  rw [testBit_clearDbgoptin, Nat.testBit_lt_two_pow (Nat.lt_of_lt_of_le h (Nat.pow_le_pow_right (by decide) hi))]
  rfl

end Sys2Proof.Machine
end

