-- ==== Sys2Proof/Laws/State.lean ====
section
/-! SUPPORT. One lemma per field of the state per update, each true by unfolding; and what the update between steps keeps. -/

namespace Sys2Proof.Machine.State

/-! ### setMem -/

@[simp] theorem setMem_regs (s : State) (m : Memory) : (s.setMem m).regs = s.regs := rfl

@[simp] theorem setMem_rip (s : State) (m : Memory) : (s.setMem m).rip = s.rip := rfl

@[simp] theorem setMem_rflags (s : State) (m : Memory) : (s.setMem m).rflags = s.rflags := rfl

@[simp] theorem setMem_cpl (s : State) (m : Memory) : (s.setMem m).cpl = s.cpl := rfl

@[simp] theorem setMem_mode (s : State) (m : Memory) : (s.setMem m).mode = s.mode := rfl

@[simp] theorem setMem_ds (s : State) (m : Memory) : (s.setMem m).ds = s.ds := rfl

@[simp] theorem setMem_vmxNonRoot (s : State) (m : Memory) : (s.setMem m).vmxNonRoot = s.vmxNonRoot := rfl

@[simp] theorem setMem_epcVirtExt (s : State) (m : Memory) : (s.setMem m).epcVirtExt = s.epcVirtExt := rfl

@[simp] theorem setMem_vmcs (s : State) (m : Memory) : (s.setMem m).vmcs = s.vmcs := rfl

@[simp] theorem setMem_mem (s : State) (m : Memory) : (s.setMem m).mem = m := rfl

@[simp] theorem setMem_epcm (s : State) (m : Memory) : (s.setMem m).epcm = s.epcm := rfl

@[simp] theorem setMem_secs (s : State) (m : Memory) : (s.setMem m).secs = s.secs := rfl

@[simp] theorem setMem_cfg (s : State) (m : Memory) : (s.setMem m).cfg = s.cfg := rfl

@[simp] theorem setMem_input (s : State) (m : Memory) : (s.setMem m).input = s.input := rfl

@[simp] theorem setMem_upcoming (s : State) (m : Memory) : (s.setMem m).upcoming = s.upcoming := rfl

@[simp] theorem setMem_text (s : State) (m : Memory) : (s.setMem m).text = s.text := rfl

@[simp] theorem setMem_draws (s : State) (m : Memory) : (s.setMem m).draws = s.draws := rfl

/-! ### setEpcm -/

@[simp] theorem setEpcm_regs (s : State) (pa : Qword) (e : EpcmEntry) : (s.setEpcm pa e).regs = s.regs := rfl

@[simp] theorem setEpcm_rip (s : State) (pa : Qword) (e : EpcmEntry) : (s.setEpcm pa e).rip = s.rip := rfl

@[simp] theorem setEpcm_rflags (s : State) (pa : Qword) (e : EpcmEntry) : (s.setEpcm pa e).rflags = s.rflags := rfl

@[simp] theorem setEpcm_cpl (s : State) (pa : Qword) (e : EpcmEntry) : (s.setEpcm pa e).cpl = s.cpl := rfl

@[simp] theorem setEpcm_mode (s : State) (pa : Qword) (e : EpcmEntry) : (s.setEpcm pa e).mode = s.mode := rfl

@[simp] theorem setEpcm_ds (s : State) (pa : Qword) (e : EpcmEntry) : (s.setEpcm pa e).ds = s.ds := rfl

@[simp] theorem setEpcm_vmxNonRoot (s : State) (pa : Qword) (e : EpcmEntry) : (s.setEpcm pa e).vmxNonRoot = s.vmxNonRoot := rfl

@[simp] theorem setEpcm_epcVirtExt (s : State) (pa : Qword) (e : EpcmEntry) : (s.setEpcm pa e).epcVirtExt = s.epcVirtExt := rfl

@[simp] theorem setEpcm_vmcs (s : State) (pa : Qword) (e : EpcmEntry) : (s.setEpcm pa e).vmcs = s.vmcs := rfl

@[simp] theorem setEpcm_mem (s : State) (pa : Qword) (e : EpcmEntry) : (s.setEpcm pa e).mem = s.mem := rfl

@[simp] theorem setEpcm_epcm (s : State) (pa : Qword) (e : EpcmEntry) : (s.setEpcm pa e).epcm = if e = .empty then remove s.epcm pa.toNat else put s.epcm pa.toNat e := rfl

@[simp] theorem setEpcm_secs (s : State) (pa : Qword) (e : EpcmEntry) : (s.setEpcm pa e).secs = s.secs := rfl

@[simp] theorem setEpcm_cfg (s : State) (pa : Qword) (e : EpcmEntry) : (s.setEpcm pa e).cfg = s.cfg := rfl

@[simp] theorem setEpcm_input (s : State) (pa : Qword) (e : EpcmEntry) : (s.setEpcm pa e).input = s.input := rfl

@[simp] theorem setEpcm_upcoming (s : State) (pa : Qword) (e : EpcmEntry) : (s.setEpcm pa e).upcoming = s.upcoming := rfl

@[simp] theorem setEpcm_text (s : State) (pa : Qword) (e : EpcmEntry) : (s.setEpcm pa e).text = s.text := rfl

@[simp] theorem setEpcm_draws (s : State) (pa : Qword) (e : EpcmEntry) : (s.setEpcm pa e).draws = s.draws := rfl

/-! ### setSecs -/

@[simp] theorem setSecs_regs (s : State) (pa : Qword) (r : Secs) : (s.setSecs pa r).regs = s.regs := rfl

@[simp] theorem setSecs_rip (s : State) (pa : Qword) (r : Secs) : (s.setSecs pa r).rip = s.rip := rfl

@[simp] theorem setSecs_rflags (s : State) (pa : Qword) (r : Secs) : (s.setSecs pa r).rflags = s.rflags := rfl

@[simp] theorem setSecs_cpl (s : State) (pa : Qword) (r : Secs) : (s.setSecs pa r).cpl = s.cpl := rfl

@[simp] theorem setSecs_mode (s : State) (pa : Qword) (r : Secs) : (s.setSecs pa r).mode = s.mode := rfl

@[simp] theorem setSecs_ds (s : State) (pa : Qword) (r : Secs) : (s.setSecs pa r).ds = s.ds := rfl

@[simp] theorem setSecs_vmxNonRoot (s : State) (pa : Qword) (r : Secs) : (s.setSecs pa r).vmxNonRoot = s.vmxNonRoot := rfl

@[simp] theorem setSecs_epcVirtExt (s : State) (pa : Qword) (r : Secs) : (s.setSecs pa r).epcVirtExt = s.epcVirtExt := rfl

@[simp] theorem setSecs_vmcs (s : State) (pa : Qword) (r : Secs) : (s.setSecs pa r).vmcs = s.vmcs := rfl

@[simp] theorem setSecs_mem (s : State) (pa : Qword) (r : Secs) : (s.setSecs pa r).mem = s.mem := rfl

@[simp] theorem setSecs_epcm (s : State) (pa : Qword) (r : Secs) : (s.setSecs pa r).epcm = s.epcm := rfl

@[simp] theorem setSecs_secs (s : State) (pa : Qword) (r : Secs) : (s.setSecs pa r).secs = put s.secs pa.toNat r := rfl

@[simp] theorem setSecs_cfg (s : State) (pa : Qword) (r : Secs) : (s.setSecs pa r).cfg = s.cfg := rfl

@[simp] theorem setSecs_input (s : State) (pa : Qword) (r : Secs) : (s.setSecs pa r).input = s.input := rfl

@[simp] theorem setSecs_upcoming (s : State) (pa : Qword) (r : Secs) : (s.setSecs pa r).upcoming = s.upcoming := rfl

@[simp] theorem setSecs_text (s : State) (pa : Qword) (r : Secs) : (s.setSecs pa r).text = s.text := rfl

@[simp] theorem setSecs_draws (s : State) (pa : Qword) (r : Secs) : (s.setSecs pa r).draws = s.draws := rfl

/-! ### advanceRip -/

@[simp] theorem advanceRip_regs (s : State) : s.advanceRip.regs = s.regs := rfl

@[simp] theorem advanceRip_rip (s : State) : s.advanceRip.rip = s.ripPlus s.cfg.ilen := rfl

@[simp] theorem advanceRip_rflags (s : State) : s.advanceRip.rflags = s.rflags := rfl

@[simp] theorem advanceRip_cpl (s : State) : s.advanceRip.cpl = s.cpl := rfl

@[simp] theorem advanceRip_mode (s : State) : s.advanceRip.mode = s.mode := rfl

@[simp] theorem advanceRip_ds (s : State) : s.advanceRip.ds = s.ds := rfl

@[simp] theorem advanceRip_vmxNonRoot (s : State) : s.advanceRip.vmxNonRoot = s.vmxNonRoot := rfl

@[simp] theorem advanceRip_epcVirtExt (s : State) : s.advanceRip.epcVirtExt = s.epcVirtExt := rfl

@[simp] theorem advanceRip_vmcs (s : State) : s.advanceRip.vmcs = s.vmcs := rfl

@[simp] theorem advanceRip_mem (s : State) : s.advanceRip.mem = s.mem := rfl

@[simp] theorem advanceRip_epcm (s : State) : s.advanceRip.epcm = s.epcm := rfl

@[simp] theorem advanceRip_secs (s : State) : s.advanceRip.secs = s.secs := rfl

@[simp] theorem advanceRip_cfg (s : State) : s.advanceRip.cfg = s.cfg := rfl

@[simp] theorem advanceRip_input (s : State) : s.advanceRip.input = s.input := rfl

@[simp] theorem advanceRip_upcoming (s : State) : s.advanceRip.upcoming = s.upcoming := rfl

@[simp] theorem advanceRip_text (s : State) : s.advanceRip.text = s.text := rfl

@[simp] theorem advanceRip_draws (s : State) : s.advanceRip.draws = s.draws := rfl

/-! ### drawn -/

@[simp] theorem drawn_regs (s : State) : s.drawn.regs = s.regs := rfl

@[simp] theorem drawn_rip (s : State) : s.drawn.rip = s.rip := rfl

@[simp] theorem drawn_rflags (s : State) : s.drawn.rflags = s.rflags := rfl

@[simp] theorem drawn_cpl (s : State) : s.drawn.cpl = s.cpl := rfl

@[simp] theorem drawn_mode (s : State) : s.drawn.mode = s.mode := rfl

@[simp] theorem drawn_ds (s : State) : s.drawn.ds = s.ds := rfl

@[simp] theorem drawn_vmxNonRoot (s : State) : s.drawn.vmxNonRoot = s.vmxNonRoot := rfl

@[simp] theorem drawn_epcVirtExt (s : State) : s.drawn.epcVirtExt = s.epcVirtExt := rfl

@[simp] theorem drawn_vmcs (s : State) : s.drawn.vmcs = s.vmcs := rfl

@[simp] theorem drawn_mem (s : State) : s.drawn.mem = s.mem := rfl

@[simp] theorem drawn_epcm (s : State) : s.drawn.epcm = s.epcm := rfl

@[simp] theorem drawn_secs (s : State) : s.drawn.secs = s.secs := rfl

@[simp] theorem drawn_cfg (s : State) : s.drawn.cfg = s.cfg := rfl

@[simp] theorem drawn_input (s : State) : s.drawn.input = s.input := rfl

@[simp] theorem drawn_upcoming (s : State) : s.drawn.upcoming = s.upcoming := rfl

@[simp] theorem drawn_text (s : State) : s.drawn.text = s.text := rfl

@[simp] theorem drawn_draws (s : State) : s.drawn.draws = s.draws + 1 := rfl

/-! ### spoilPage -/

@[simp] theorem spoilPage_regs (s : State) (pa : Qword) : (s.spoilPage pa).regs = s.regs := rfl

@[simp] theorem spoilPage_rip (s : State) (pa : Qword) : (s.spoilPage pa).rip = s.rip := rfl

@[simp] theorem spoilPage_rflags (s : State) (pa : Qword) : (s.spoilPage pa).rflags = s.rflags := rfl

@[simp] theorem spoilPage_cpl (s : State) (pa : Qword) : (s.spoilPage pa).cpl = s.cpl := rfl

@[simp] theorem spoilPage_mode (s : State) (pa : Qword) : (s.spoilPage pa).mode = s.mode := rfl

@[simp] theorem spoilPage_ds (s : State) (pa : Qword) : (s.spoilPage pa).ds = s.ds := rfl

@[simp] theorem spoilPage_vmxNonRoot (s : State) (pa : Qword) : (s.spoilPage pa).vmxNonRoot = s.vmxNonRoot := rfl

@[simp] theorem spoilPage_epcVirtExt (s : State) (pa : Qword) : (s.spoilPage pa).epcVirtExt = s.epcVirtExt := rfl

@[simp] theorem spoilPage_vmcs (s : State) (pa : Qword) : (s.spoilPage pa).vmcs = s.vmcs := rfl

@[simp] theorem spoilPage_mem (s : State) (pa : Qword) : (s.spoilPage pa).mem = s.mem.putPage pa.toNat (Memory.freePage s.draws) := rfl

@[simp] theorem spoilPage_epcm (s : State) (pa : Qword) : (s.spoilPage pa).epcm = s.epcm := rfl

@[simp] theorem spoilPage_secs (s : State) (pa : Qword) : (s.spoilPage pa).secs = s.secs := rfl

@[simp] theorem spoilPage_cfg (s : State) (pa : Qword) : (s.spoilPage pa).cfg = s.cfg := rfl

@[simp] theorem spoilPage_input (s : State) (pa : Qword) : (s.spoilPage pa).input = s.input := rfl

@[simp] theorem spoilPage_upcoming (s : State) (pa : Qword) : (s.spoilPage pa).upcoming = s.upcoming := rfl

@[simp] theorem spoilPage_text (s : State) (pa : Qword) : (s.spoilPage pa).text = s.text := rfl

@[simp] theorem spoilPage_draws (s : State) (pa : Qword) : (s.spoilPage pa).draws = s.draws + 1 := rfl

/-! ### placeText -/

@[simp] theorem placeText_regs (s : State) (bs : List Byte) : (s.placeText bs).regs = s.regs := rfl

@[simp] theorem placeText_rip (s : State) (bs : List Byte) : (s.placeText bs).rip = s.rip := rfl

@[simp] theorem placeText_rflags (s : State) (bs : List Byte) : (s.placeText bs).rflags = s.rflags := rfl

@[simp] theorem placeText_cpl (s : State) (bs : List Byte) : (s.placeText bs).cpl = s.cpl := rfl

@[simp] theorem placeText_mode (s : State) (bs : List Byte) : (s.placeText bs).mode = s.mode := rfl

@[simp] theorem placeText_ds (s : State) (bs : List Byte) : (s.placeText bs).ds = s.ds := rfl

@[simp] theorem placeText_vmxNonRoot (s : State) (bs : List Byte) : (s.placeText bs).vmxNonRoot = s.vmxNonRoot := rfl

@[simp] theorem placeText_epcVirtExt (s : State) (bs : List Byte) : (s.placeText bs).epcVirtExt = s.epcVirtExt := rfl

@[simp] theorem placeText_vmcs (s : State) (bs : List Byte) : (s.placeText bs).vmcs = s.vmcs := rfl

@[simp] theorem placeText_mem (s : State) (bs : List Byte) : (s.placeText bs).mem = s.mem := rfl

@[simp] theorem placeText_epcm (s : State) (bs : List Byte) : (s.placeText bs).epcm = s.epcm := rfl

@[simp] theorem placeText_secs (s : State) (bs : List Byte) : (s.placeText bs).secs = s.secs := rfl

@[simp] theorem placeText_cfg (s : State) (bs : List Byte) : (s.placeText bs).cfg = s.cfg := rfl

@[simp] theorem placeText_input (s : State) (bs : List Byte) : (s.placeText bs).input = s.input := rfl

@[simp] theorem placeText_upcoming (s : State) (bs : List Byte) : (s.placeText bs).upcoming = s.upcoming := rfl

@[simp] theorem placeText_text (s : State) (bs : List Byte) : (s.placeText bs).text = (bs.zipIdx).foldl (fun t b => put t (s.ripPlus b.2).toNat b.1) s.text := rfl

@[simp] theorem placeText_draws (s : State) (bs : List Byte) : (s.placeText bs).draws = s.draws := rfl

/-! ### selectEadd -/

@[simp] theorem selectEadd_rip (s : State) : s.selectEadd.rip = s.rip := rfl

@[simp] theorem selectEadd_rflags (s : State) : s.selectEadd.rflags = s.rflags := rfl

@[simp] theorem selectEadd_cpl (s : State) : s.selectEadd.cpl = s.cpl := rfl

@[simp] theorem selectEadd_mode (s : State) : s.selectEadd.mode = s.mode := rfl

@[simp] theorem selectEadd_ds (s : State) : s.selectEadd.ds = s.ds := rfl

@[simp] theorem selectEadd_vmxNonRoot (s : State) : s.selectEadd.vmxNonRoot = s.vmxNonRoot := rfl

@[simp] theorem selectEadd_epcVirtExt (s : State) : s.selectEadd.epcVirtExt = s.epcVirtExt := rfl

@[simp] theorem selectEadd_vmcs (s : State) : s.selectEadd.vmcs = s.vmcs := rfl

@[simp] theorem selectEadd_mem (s : State) : s.selectEadd.mem = s.mem := rfl

@[simp] theorem selectEadd_epcm (s : State) : s.selectEadd.epcm = s.epcm := rfl

@[simp] theorem selectEadd_secs (s : State) : s.selectEadd.secs = s.secs := rfl

@[simp] theorem selectEadd_cfg (s : State) : s.selectEadd.cfg = s.cfg := rfl

@[simp] theorem selectEadd_input (s : State) : s.selectEadd.input = s.input := rfl

@[simp] theorem selectEadd_upcoming (s : State) : s.selectEadd.upcoming = s.upcoming := rfl

@[simp] theorem selectEadd_text (s : State) : s.selectEadd.text = s.text := rfl

@[simp] theorem selectEadd_draws (s : State) : s.selectEadd.draws = s.draws := rfl

/-! ### nextInput and betweenSteps -/

@[simp] theorem nextInput_rip (s : State) : s.nextInput.rip = s.rip := by
  unfold nextInput
  split <;> rfl

@[simp] theorem betweenSteps_rip (s : State) : s.betweenSteps.rip = s.rip := by
  simp [betweenSteps]

@[simp] theorem nextInput_rflags (s : State) : s.nextInput.rflags = s.rflags := by
  unfold nextInput
  split <;> rfl

@[simp] theorem betweenSteps_rflags (s : State) : s.betweenSteps.rflags = s.rflags := by
  simp [betweenSteps]

@[simp] theorem nextInput_cpl (s : State) : s.nextInput.cpl = s.cpl := by
  unfold nextInput
  split <;> rfl

@[simp] theorem betweenSteps_cpl (s : State) : s.betweenSteps.cpl = s.cpl := by
  simp [betweenSteps]

@[simp] theorem nextInput_mode (s : State) : s.nextInput.mode = s.mode := by
  unfold nextInput
  split <;> rfl

@[simp] theorem betweenSteps_mode (s : State) : s.betweenSteps.mode = s.mode := by
  simp [betweenSteps]

@[simp] theorem nextInput_ds (s : State) : s.nextInput.ds = s.ds := by
  unfold nextInput
  split <;> rfl

@[simp] theorem betweenSteps_ds (s : State) : s.betweenSteps.ds = s.ds := by
  simp [betweenSteps]

@[simp] theorem nextInput_vmxNonRoot (s : State) : s.nextInput.vmxNonRoot = s.vmxNonRoot := by
  unfold nextInput
  split <;> rfl

@[simp] theorem betweenSteps_vmxNonRoot (s : State) : s.betweenSteps.vmxNonRoot = s.vmxNonRoot := by
  simp [betweenSteps]

@[simp] theorem nextInput_epcVirtExt (s : State) : s.nextInput.epcVirtExt = s.epcVirtExt := by
  unfold nextInput
  split <;> rfl

@[simp] theorem betweenSteps_epcVirtExt (s : State) : s.betweenSteps.epcVirtExt = s.epcVirtExt := by
  simp [betweenSteps]

@[simp] theorem nextInput_vmcs (s : State) : s.nextInput.vmcs = s.vmcs := by
  unfold nextInput
  split <;> rfl

@[simp] theorem betweenSteps_vmcs (s : State) : s.betweenSteps.vmcs = s.vmcs := by
  simp [betweenSteps]

@[simp] theorem nextInput_mem (s : State) : s.nextInput.mem = s.mem := by
  unfold nextInput
  split <;> rfl

@[simp] theorem betweenSteps_mem (s : State) : s.betweenSteps.mem = s.mem := by
  simp [betweenSteps]

@[simp] theorem nextInput_epcm (s : State) : s.nextInput.epcm = s.epcm := by
  unfold nextInput
  split <;> rfl

@[simp] theorem betweenSteps_epcm (s : State) : s.betweenSteps.epcm = s.epcm := by
  simp [betweenSteps]

@[simp] theorem nextInput_secs (s : State) : s.nextInput.secs = s.secs := by
  unfold nextInput
  split <;> rfl

@[simp] theorem betweenSteps_secs (s : State) : s.betweenSteps.secs = s.secs := by
  simp [betweenSteps]

@[simp] theorem nextInput_cfg (s : State) : s.nextInput.cfg = s.cfg := by
  unfold nextInput
  split <;> rfl

@[simp] theorem betweenSteps_cfg (s : State) : s.betweenSteps.cfg = s.cfg := by
  simp [betweenSteps]

@[simp] theorem nextInput_text (s : State) : s.nextInput.text = s.text := by
  unfold nextInput
  split <;> rfl

@[simp] theorem betweenSteps_text (s : State) : s.betweenSteps.text = s.text := by
  simp [betweenSteps]

@[simp] theorem nextInput_draws (s : State) : s.nextInput.draws = s.draws := by
  unfold nextInput
  split <;> rfl

@[simp] theorem betweenSteps_draws (s : State) : s.betweenSteps.draws = s.draws + 1 := by
  simp [betweenSteps]

/-- With nothing queued the input and the registers stay. -/
theorem nextInput_nil {s : State} (h : s.upcoming = []) : s.nextInput = s := by
  simp [nextInput, h]

/-- A queued input comes into force, with its register loads. -/
theorem nextInput_cons {s : State} {i : StepInput} {rest : List StepInput} (h : s.upcoming = i :: rest) :
    s.nextInput = { s with input := i, upcoming := rest, regs := s.regs.load i.loads } := by
  simp [nextInput, h]

/-! ### Views of the state -/

@[simp] theorem epcmEntry_setMem (s : State) (m : Memory) (pa : Qword) : (s.setMem m).epcmEntry pa = s.epcmEntry pa := rfl

@[simp] theorem epcmEntry_setSecs (s : State) (p : Qword) (r : Secs) (pa : Qword) :
    (s.setSecs p r).epcmEntry pa = s.epcmEntry pa := rfl

@[simp] theorem epcmEntry_betweenSteps (s : State) (pa : Qword) : s.betweenSteps.epcmEntry pa = s.epcmEntry pa := by
  simp [epcmEntry]

@[simp] theorem secsRecord?_setMem (s : State) (m : Memory) (pa : Qword) : (s.setMem m).secsRecord? pa = s.secsRecord? pa := rfl

@[simp] theorem secsRecord?_setEpcm (s : State) (p : Qword) (e : EpcmEntry) (pa : Qword) :
    (s.setEpcm p e).secsRecord? pa = s.secsRecord? pa := rfl

@[simp] theorem secsRecord?_betweenSteps (s : State) (pa : Qword) : s.betweenSteps.secsRecord? pa = s.secsRecord? pa := by
  simp [secsRecord?]

@[simp] theorem secsIdentifier_betweenSteps (s : State) (pa : Qword) (r : Secs) :
    s.betweenSteps.secsIdentifier pa r = s.secsIdentifier pa r := by
  simp [secsIdentifier]

/-- At the default choice the identifier of a SECS is the address of its page. -/
theorem secsIdentifier_of_pageAddress {s : State} (h : s.cfg.secsId = .pageAddress) (pa : Qword) (r : Secs) :
    s.secsIdentifier pa r = pa := by
  simp [secsIdentifier, h]

@[simp] theorem eax_selectEadd (s : State) : s.selectEadd.eax = 1 := by
  simp [eax, selectEadd, BitVec.setWidth_or, BitVec.setWidth_and]

end Sys2Proof.Machine.State
end

