-- ==== Sys2Proof/Laws/Checks.lean ====
section
/-! SUPPORT. What each check of the leaf does, in the terms of Safety: when it passes and with what result, and how it ends the
execution otherwise. One lemma per function; the provers cite these instead of unfolding. -/

namespace Sys2Proof.Machine

open Sys2Proof.Safety

/-! ## Sequencing checks -/

/-- A sequence passes exactly when its first part passes and the rest passes on its result. -/
theorem Check.bind_ok_iff {α β : Type} (x : Check α) (f : α → Check β) (b : β) :
    (x >>= f) = .ok b ↔ ∃ a, x = .ok a ∧ f a = .ok b := by
  cases x <;> simp [bind, Except.bind]

@[simp] theorem Check.ok_bind {α β : Type} (a : α) (f : α → Check β) : ((Except.ok a : Check α) >>= f) = f a := rfl

@[simp] theorem Check.error_bind {α β : Type} (e : Stop) (f : α → Check β) :
    ((Except.error e : Check α) >>= f) = .error e := rfl

@[simp] theorem Check.raise_bind {α β : Type} (e : Exception) (s : State) (f : α → Check β) :
    ((Check.raise e s : Check α) >>= f) = Check.raise e s := rfl

@[simp] theorem Check.refuse_bind {α β : Type} (r : Refusal) (f : α → Check β) :
    ((Check.refuse r : Check α) >>= f) = Check.refuse r := rfl

@[simp] theorem Check.pure_eq {α : Type} (a : α) : (pure a : Check α) = .ok a := rfl

@[simp] theorem Check.raise_ne_ok {α : Type} (e : Exception) (s : State) (a : α) : Check.raise e s ≠ .ok a := nofun

@[simp] theorem Check.refuse_ne_ok {α : Type} (r : Refusal) (a : α) : Check.refuse r ≠ .ok a := nofun

@[simp] theorem Check.require_true (e : Exception) (s : State) : Check.require true e s = .ok () := rfl

@[simp] theorem Check.require_false (e : Exception) (s : State) : Check.require false e s = Check.raise e s := rfl

@[simp] theorem Check.allow_true (r : Refusal) : Check.allow true r = .ok () := rfl

@[simp] theorem Check.allow_false (r : Refusal) : Check.allow false r = Check.refuse r := rfl

@[simp] theorem Check.require_ok_iff (c : Bool) (e : Exception) (s : State) (u : Unit) :
    Check.require c e s = .ok u ↔ c = true := by
  cases c <;> simp

@[simp] theorem Check.allow_ok_iff (c : Bool) (r : Refusal) (u : Unit) : Check.allow c r = .ok u ↔ c = true := by
  cases c <;> simp

/-! ## Outcomes -/

@[simp] theorem Check.outcome_ok (s : State) : Check.outcome (.ok s) = .next s := rfl

@[simp] theorem Check.outcome_raise (e : Exception) (s : State) :
    Check.outcome (Check.raise e s) = .fault (Machine.raise e s) := rfl

@[simp] theorem Check.outcome_refuse (r : Refusal) : Check.outcome (Check.refuse r) = .refused r := rfl

/-- An execution goes on exactly when every check passed. -/
theorem Check.outcome_next_iff (x : Check State) (t : State) : Check.outcome x = .next t ↔ x = .ok t := by
  rcases x with (f | r) | s <;> simp [Check.outcome]

@[simp] theorem raise_gp (s : State) : raise .generalProtection s = .gp 0 s := rfl

@[simp] theorem raise_ud (s : State) : raise .invalidOpcode s = .ud s := rfl

@[simp] theorem raise_pf (lin : Qword) (s : State) :
    raise (.pageFault lin) s = .pf lin (Config.pfErrorCode s.draws) s.drawn := rfl

/-! ## Addresses -/

/-- The canonical test is that bits 63 down to `width - 1` are equal (spec/20_memory.md R32). -/
theorem canonical_iff (width : Nat) (ea : Qword) :
    canonical width ea = true ↔ Canonical width ea := by
  have hbit : ∀ i, i < 64 → (ea.sshiftRight (width - 1)).getLsbD i =
      if width - 1 + i < 64 then ea.getLsbD (width - 1 + i) else ea.getLsbD 63 := fun i hi => by
    rw [BitVec.getLsbD_sshiftRight]
    simp [Nat.not_le.mpr hi, BitVec.msb_eq_getLsbD_last]
  simp only [canonical, Bool.or_eq_true, beq_iff_eq]
  constructor
  · intro h i hi hwi
    have h1 : ∀ j, j < 64 → (ea.sshiftRight (width - 1)).getLsbD j = (ea.sshiftRight (width - 1)).getLsbD 63 := by
      intro j hj
      rcases h with h | h <;> rw [h] <;> simp only [BitVec.getLsbD_allOnes, BitVec.ofNat_eq_ofNat, BitVec.getLsbD_zero, hj, Nat.reduceLT, decide_true]
    have h2 := h1 (i - (width - 1)) (by omega)
    rw [hbit _ (by omega), hbit 63 (by omega), show width - 1 + (i - (width - 1)) = i by omega, if_pos hi] at h2
    rw [h2]
    by_cases h63 : width - 1 + 63 < 64
    · rw [if_pos h63, show width - 1 + 63 = 63 by omega]
    · rw [if_neg h63]
  · intro h
    have hall : ∀ j, j < 64 → (ea.sshiftRight (width - 1)).getLsbD j = ea.getLsbD 63 := fun j hj => by
      rw [hbit j hj]
      split
      · next hlt => exact h _ hlt (by omega)
      · rfl
    cases hm : ea.getLsbD 63
    · left
      apply BitVec.eq_of_getLsbD_eq
      intro j hj
      rw [hall j hj, hm]
      simp
    · right
      apply BitVec.eq_of_getLsbD_eq
      intro j hj
      rw [hall j hj, hm, BitVec.getLsbD_allOnes, decide_eq_true hj]

theorem upperHalfClear_iff (s : State) (v : Qword) : upperHalfClear s.mode v = true ↔ UpperClear s v := by
  cases hm : s.mode with
  | mode64 => simp [upperHalfClear, UpperClear, hm]
  | mode32 =>
    simp only [upperHalfClear, UpperClear, hm, beq_iff_eq, forall_const]
    rw [← BitVec.toNat_inj]
    simp only [BitVec.toNat_ushiftRight, Nat.shiftRight_eq_div_pow, BitVec.ofNat_eq_ofNat, BitVec.toNat_ofNat,
      Nat.zero_mod]
    omega

theorem upperHalfClear_eq_false_iff (s : State) (v : Qword) : upperHalfClear s.mode v = false ↔ ¬ UpperClear s v := by
  rw [← Bool.not_eq_true, upperHalfClear_iff]

/-- `Lin(ea, n)` answers the linear address of Safety, or `#GP(0)` in the state as it is. -/
theorem linear_cases {s : State} {n : Nat} (hn : 0 < n) (ea : Qword) :
    (∃ la, linear s ea n = .ok la ∧ LinearIs s ea n la) ∨
      (linear s ea n = Check.raise .generalProtection s ∧ LinearFaults s ea n) := by
  cases hm : s.mode with
  | mode64 =>
    rw [linear, hm]
    by_cases hc : canonical s.cfg.linWidth ea = true
    · exact .inl ⟨ea, by simp [hc], fun _ => ⟨(canonical_iff _ ea).mp hc, rfl⟩, by simp [hm]⟩
    · exact .inr ⟨by simp [hc], fun _ h => hc ((canonical_iff _ ea).mpr h), by simp [hm]⟩
  | mode32 =>
    rw [linear, hm]
    have hea : (ea.setWidth 32).toNat = ea.toNat % 2 ^ 32 := by simp
    by_cases hc : (ea.setWidth 32).toNat + n - 1 ≤ s.ds.limit.toNat
    · refine .inl ⟨(s.ds.base + ea.setWidth 32).setWidth 64, by simp only [hc, if_true], by simp [hm], fun _ => ⟨by omega, ?_⟩⟩
      have hlt := (s.ds.base + ea.setWidth 32).isLt
      rw [BitVec.toNat_setWidth, Nat.mod_eq_of_lt (by omega), BitVec.toNat_add, hea]
    · exact .inr ⟨by simp only [hc, if_false], by simp [hm], fun _ => by omega⟩

/-- At most one linear address belongs to an operand. -/
theorem linearIs_unique {s : State} {ea la la' : Qword} {n : Nat} (h : LinearIs s ea n la) (h' : LinearIs s ea n la') :
    la = la' := by
  cases hm : s.mode with
  | mode64 => rw [(h.1 hm).2, (h'.1 hm).2]
  | mode32 =>
    apply BitVec.eq_of_toNat_eq
    rw [(h.2 hm).2, (h'.2 hm).2]

theorem linearIs_not_faults {s : State} {ea la : Qword} {n : Nat} (h : LinearIs s ea n la) : ¬ LinearFaults s ea n := by
  intro hf
  cases hm : s.mode with
  | mode64 => exact hf.1 hm (h.1 hm).1
  | mode32 =>
    have h1 := hf.2 hm
    have h2 := (h.2 hm).1
    omega

/-- The linear address of an aligned operand. -/
theorem alignedLinear_of {s : State} {n : Nat} (hn : 0 < n) {ea la : Qword} {align : Nat}
    (h : LinearIs s ea n la) (ha : la.toNat % align = 0) : alignedLinear s ea n align = .ok la := by
  rcases linear_cases (s := s) hn ea with ⟨la', h1, h2⟩ | ⟨-, h2⟩
  · obtain rfl := linearIs_unique h h2
    simp [alignedLinear, h1, ha]
  · exact absurd h2 (linearIs_not_faults h)

/-- An operand without a linear address, or a misaligned one, raises `#GP(0)` in the state as it is. -/
theorem alignedLinear_faults {s : State} {n : Nat} (hn : 0 < n) {ea : Qword} {align : Nat}
    (h : OperandFaults s ea n align) : alignedLinear s ea n align = Check.raise .generalProtection s := by
  rcases linear_cases (s := s) hn ea with ⟨la, h1, h2⟩ | ⟨h1, -⟩
  · rcases h with h | ⟨la', h', ha⟩
    · exact absurd h (linearIs_not_faults h2)
    · obtain rfl := linearIs_unique h' h2
      have : (la'.toNat % align == 0) = false := by simpa using ha
      simp [alignedLinear, h1, this]
  · simp [alignedLinear, h1]

/-- What an aligned operand's check can answer. -/
theorem alignedLinear_ok {s : State} {n : Nat} (hn : 0 < n) {ea la : Qword} {align : Nat}
    (h : alignedLinear s ea n align = .ok la) : LinearIs s ea n la ∧ la.toNat % align = 0 := by
  rcases linear_cases (s := s) hn ea with ⟨la', h1, h2⟩ | ⟨h1, -⟩
  · simp only [alignedLinear, h1, Check.ok_bind, Check.bind_ok_iff, Check.require_ok_iff, beq_iff_eq, Check.pure_eq,
      Except.ok.injEq] at h
    obtain ⟨-, ha, rfl⟩ := h
    exact ⟨h2, ha⟩
  · simp [alignedLinear, h1] at h

/-! ## Translation -/

theorem pageBase_eq (pa : Qword) : pageBase pa = BitVec.ofNat 64 (pa.toNat / 4096 * 4096) := by
  apply BitVec.eq_of_getLsbD_eq
  intro i hi
  have h1 : pa.toNat / 4096 * 4096 = (pa.toNat >>> 12) <<< 12 := by
    rw [Nat.shiftRight_eq_div_pow, Nat.shiftLeft_eq]
  have h2 : (0xFFF#64).getLsbD i = decide (i < 12) := by
    have : ∀ i, i < 64 → (0xFFF#64).getLsbD i = decide (i < 12) := by decide
    exact this i hi
  have h3 : (BitVec.ofNat 64 (pa.toNat / 4096 * 4096)).getLsbD i = (decide (12 ≤ i) && pa.toNat.testBit (12 + (i - 12))) := by
    rw [BitVec.getLsbD_ofNat, h1, Nat.testBit_shiftLeft, Nat.testBit_shiftRight]
    simp [hi]
  rw [h3, pageBase, BitVec.getLsbD_and, BitVec.getLsbD_not, h2]
  by_cases h : 12 ≤ i
  · have h3 : 12 + (i - 12) = i := by omega
    have h4 : ¬ i < 12 := by omega
    simp [hi, h, h3, h4, BitVec.getLsbD]
  · have h4 : i < 12 := by omega
    simp [h, h4]

theorem inEpc_iff (s : State) (pa : Qword) : inEpc s.cfg pa = true ↔ InEpc s pa := by
  rw [inEpc, pageBase_eq, List.contains_iff_mem]

theorem inEpc_eq_false_iff (s : State) (pa : Qword) : inEpc s.cfg pa = false ↔ ¬ InEpc s pa := by
  rw [← Bool.not_eq_true, inEpc_iff]

/-- A translation keeps the low 12 bits (spec/20_memory.md R34). -/
theorem resolve_low {i : StepInput} {lin pa : Qword} {acc : Access} (h : resolve i lin acc = some pa) :
    pa.toNat % 4096 = lin.toNat % 4096 := by
  simp only [resolve] at h
  split at h
  · obtain rfl := Option.some.inj h
    rw [BitVec.toNat_ofNat, Nat.mod_mod_of_dvd _ (by decide : 4096 ∣ 2 ^ 64)]
    omega
  · simp at h

/-- An aligned operand in the EPC resolves to a page address of the EPC. -/
theorem mem_epc_of_resolve {s : State} {lin pa : Qword} {acc : Access} (h : resolve s.input lin acc = some pa)
    (ha : lin.toNat % 4096 = 0) (he : InEpc s pa) : pa ∈ s.cfg.epc := by
  have h0 := resolve_low h
  have h1 : pa.toNat / 4096 * 4096 = pa.toNat := by omega
  simpa [InEpc, h1] using he

theorem resolveEpc_of {s : State} {lin pa : Qword} (h : resolve s.input lin .wr = some pa) (he : InEpc s pa) :
    resolveEpc s lin = .ok pa := by
  simp [resolveEpc, h, (inEpc_iff s pa).mpr he]

theorem resolveEpc_faults {s : State} {lin : Qword} (h : NotResolvedInEpc s lin) :
    resolveEpc s lin = Check.raise (.pageFault lin) s := by
  rcases h with h | ⟨pa, h, he⟩
  · simp [resolveEpc, h]
  · simp [resolveEpc, h, (inEpc_eq_false_iff s pa).mpr he]

theorem resolveEpc_ok {s : State} {lin pa : Qword} (h : resolveEpc s lin = .ok pa) :
    resolve s.input lin .wr = some pa ∧ InEpc s pa := by
  rw [resolveEpc] at h
  split at h
  · simp at h
  · split at h
    · next hr he => obtain rfl := Except.ok.inj h; exact ⟨hr, (inEpc_iff s _).mp he⟩
    · simp at h

theorem resolveOutside_of {s u : State} {lin pa : Qword} (h : resolve s.input lin .rd = some pa) (he : ¬ InEpc s pa) :
    resolveOutside s lin u = .ok pa := by
  simp [resolveOutside, h, (inEpc_eq_false_iff s pa).mpr he]

theorem resolveOutside_faults {s u : State} {lin : Qword} (h : resolve s.input lin .rd = none) :
    resolveOutside s lin u = Check.raise (.pageFault lin) u := by
  simp [resolveOutside, h]

theorem resolveOutside_refuses {s u : State} {lin pa : Qword} (h : resolve s.input lin .rd = some pa) (he : InEpc s pa) :
    resolveOutside s lin u = Check.refuse .nonEnclaveOperandInEpc := by
  simp [resolveOutside, h, (inEpc_iff s pa).mpr he]

theorem resolveOutside_ok {s u : State} {lin pa : Qword} (h : resolveOutside s lin u = .ok pa) :
    resolve s.input lin .rd = some pa ∧ ¬ InEpc s pa := by
  rw [resolveOutside] at h
  split at h
  · simp at h
  · split at h
    · simp at h
    · next hr he => obtain rfl := Except.ok.inj h; exact ⟨hr, fun hi => he ((inEpc_iff s _).mpr hi)⟩

/-! ## SECINFO -/

theorem secInfoPt_eq (c : Cfg) (si : BitVec 512) : secInfoPt c.secInfo si = PtOf c si := by
  rw [secInfoPt, BitVec.extractLsb'_toNat, Nat.shiftRight_eq_div_pow]

theorem getLsbD_bit512 (k i : Nat) (hi : i < 512) : (bit512 k).getLsbD i = decide (i = k) := by
  rw [bit512, BitVec.getLsbD_shiftLeft, BitVec.getLsbD_one]
  by_cases h : i < k
  · have : ¬ i = k := by omega
    simp [h, this]
  · by_cases h' : i = k
    · simp [h', show k < 512 by omega]
    · have : ¬ i - k = 0 := by omega
      simp [h', this]

theorem getLsbD_secInfoRwx (l : SecInfoLayout) (i : Nat) (hi : i < 512) :
    (secInfoRwx l).getLsbD i = (decide (i = l.r) || decide (i = l.w) || decide (i = l.x)) := by
  simp [secInfoRwx, getLsbD_bit512 _ _ hi]

/-- Clearing R, W and X clears these bits and keeps every other. -/
theorem getLsbD_clearRwx (l : SecInfoLayout) (si : BitVec 512) (i : Nat) (hi : i < 512) :
    (clearRwx l si).getLsbD i = (si.getLsbD i && !(decide (i = l.r) || decide (i = l.w) || decide (i = l.x))) := by
  rw [clearRwx, BitVec.getLsbD_and, BitVec.getLsbD_not, getLsbD_secInfoRwx l i hi]
  simp [hi]

/-- The refusal's mask meets nothing exactly when the bits the source leaves open are zero. -/
theorem secInfoOpen_iff (c : Cfg) (si : BitVec 512) : si &&& secInfoOpen c.secInfo = 0 ↔ OpenBitsClear c si := by
  rw [secInfoOpen, OpenBitsClear]
  split
  · next hd =>
    have hm : ∀ i, i < 512 → (0x38#512).getLsbD i = (decide (i = 3) || decide (i = 4) || decide (i = 5)) := by decide +kernel
    constructor
    · intro h _
      have hb : ∀ i, i < 512 → (si.getLsbD i && (0x38#512).getLsbD i) = false := fun i hi => by
        rw [← BitVec.getLsbD_and]
        exact (congrArg (fun v => BitVec.getLsbD v i) h).trans (by simp)
      have one : ∀ i, i < 512 → (decide (i = 3) || decide (i = 4) || decide (i = 5)) = true → si.getLsbD i = false :=
        fun i hi hc => by
          have h' := hb i hi
          rwa [hm i hi, hc, Bool.and_true] at h'
      exact ⟨one 3 (by decide) rfl, one 4 (by decide) rfl, one 5 (by decide) rfl⟩
    · intro h
      obtain ⟨h3, h4, h5⟩ := h hd
      apply BitVec.eq_of_getLsbD_eq
      intro i hi
      rw [BitVec.getLsbD_and]
      show (si.getLsbD i && (0x38#512).getLsbD i) = _
      refine Eq.trans ?_ (show false = (0#512).getLsbD i by simp)
      rw [hm i hi]
      by_cases hc : i = 3 ∨ i = 4 ∨ i = 5
      · obtain rfl | rfl | rfl := hc
        · rw [h3]; rfl
        · rw [h4]; rfl
        · rw [h5]; rfl
      · have : ¬ i = 3 ∧ ¬ i = 4 ∧ ¬ i = 5 := by omega
        simp [this]
  · next hd => simp [hd]

theorem eaddSecInfoCheck_of {s : State} {t : Temps} (h : Pass8 s t) :
    eaddSecInfoCheck s t.si = .ok () := by
  obtain ⟨⟨h1, h2⟩, h3⟩ := h
  rw [ReservedZero] at h1
  have h4 := (secInfoOpen_iff s.cfg t.si).mpr h3
  have h5 : secInfoTypeOk s.cfg t.si = true := by
    simp only [secInfoTypeOk, secInfoPt_eq, Bool.or_eq_true, beq_iff_eq]
    exact h2
  rw [eaddSecInfoCheck, h5, beq_iff_eq.mpr h1, beq_iff_eq.mpr h4]
  rfl

theorem eaddSecInfoCheck_faults {s : State} {t : Temps} (h : ¬ SecInfoOk s t) :
    eaddSecInfoCheck s t.si = Check.raise .generalProtection s := by
  have : (t.si &&& s.cfg.secInfo.reservedMask == 0 && secInfoTypeOk s.cfg t.si) = false := by
    rw [← Bool.not_eq_true]
    simp only [secInfoTypeOk, secInfoPt_eq, Bool.and_eq_true, Bool.or_eq_true, beq_iff_eq]
    exact h
  rw [eaddSecInfoCheck, this]
  rfl

theorem eaddSecInfoCheck_refuses {s : State} {t : Temps} (h : SecInfoOk s t)
    (hn : ¬ OpenBitsClear s.cfg t.si) : eaddSecInfoCheck s t.si = Check.refuse .secinfoBits5to3 := by
  obtain ⟨h1, h2⟩ := h
  rw [ReservedZero] at h1
  have h5 : secInfoTypeOk s.cfg t.si = true := by
    simp only [secInfoTypeOk, secInfoPt_eq, Bool.or_eq_true, beq_iff_eq]
    exact h2
  have h4 : (t.si &&& secInfoOpen s.cfg.secInfo == 0) = false := by
    rw [← Bool.not_eq_true, beq_iff_eq, secInfoOpen_iff s.cfg]
    exact hn
  rw [eaddSecInfoCheck, h4, h5, beq_iff_eq.mpr h1]
  rfl

theorem eaddSecInfoCheck_ok {s : State} {si : BitVec 512}
    (h : eaddSecInfoCheck s si = .ok ()) :
    ReservedZero s.cfg si ∧ (PtOf s.cfg si = s.cfg.pageTypes.reg ∨ PtOf s.cfg si = s.cfg.pageTypes.tcs) ∧
      OpenBitsClear s.cfg si := by
  simp only [eaddSecInfoCheck, Check.bind_ok_iff, Check.require_ok_iff, Check.allow_ok_iff, Bool.and_eq_true, beq_iff_eq,
    secInfoTypeOk, secInfoPt_eq, Bool.or_eq_true] at h
  obtain ⟨-, ⟨h1, h2⟩, h3⟩ := h
  exact ⟨h1, h2, (secInfoOpen_iff s.cfg si).mp h3⟩

/-! ## Admission -/

theorem eax_eq_one_iff (s : State) : (s.eax == 1) = true ↔ s.regs.rax.toNat % 2 ^ 32 = 1 := by
  rw [beq_iff_eq, ← BitVec.toNat_inj, State.eax, BitVec.toNat_setWidth]
  rfl

theorem eaddAdmission_of {s : State} (h : Pass0 s) : eaddAdmission s = .ok () := by
  obtain ⟨h1, h2, h3, h4, h5⟩ := h
  rw [eaddAdmission, h1, beq_iff_eq.mpr h2, (eax_eq_one_iff s).mpr h3, (upperHalfClear_iff s _).mpr h4,
    (upperHalfClear_iff s _).mpr h5]
  rfl

theorem eaddAdmission_ok {s : State} (h : eaddAdmission s = .ok ()) : Pass0 s := by
  simp only [eaddAdmission, Check.bind_ok_iff, Check.require_ok_iff, Check.allow_ok_iff, Bool.and_eq_true,
    upperHalfClear_iff, eax_eq_one_iff] at h
  obtain ⟨-, h1, -, h2, -, h3, h4, h5⟩ := h
  exact ⟨h1, by simpa using h2, h3, h4, h5⟩

end Sys2Proof.Machine
end

