-- ==== Sys2Proof/Laws/Eadd.lean ====
section
/-! SUPPORT. The leaf EADD stage by stage: what each stage answers when its checks pass, how it ends when one fails, and, from
its answer, which checks have passed. The last section says once everything an execution that goes on can do. -/

namespace Sys2Proof.Machine

open Sys2Proof.Safety

/-! ## Parts of a well-formed configuration -/

theorem Cfg.wf_parts {c : Cfg} (h : c.wf = true) :
    c.lengthOk = true ∧ c.epcOk = true ∧ c.widthOk = true ∧ c.pageInfoOk = true ∧ c.secInfoFieldsOk = true ∧
      c.secInfoMaskOk = true ∧ c.pageTypesDistinct = true ∧ c.pageTypesFit = true ∧ c.tcsOk = true ∧ c.tcsLimitsOk = true ∧
      c.tcsFieldsDisjoint = true := by
  simp only [Cfg.wf, Bool.and_eq_true] at h
  tauto

/-- R, W and X are bits of SECINFO outside PT, and distinct. -/
theorem rwx_of_wf {c : Cfg} (h : c.wf = true) :
    (c.secInfo.r < 512 ∧ c.secInfo.w < 512 ∧ c.secInfo.x < 512) ∧
      (c.secInfo.r < c.secInfo.ptLo ∨ c.secInfo.ptHi < c.secInfo.r) ∧
      (c.secInfo.w < c.secInfo.ptLo ∨ c.secInfo.ptHi < c.secInfo.w) ∧
      (c.secInfo.x < c.secInfo.ptLo ∨ c.secInfo.ptHi < c.secInfo.x) := by
  have := (Cfg.wf_parts h).2.2.2.2.1
  simp only [Cfg.secInfoFieldsOk, Bool.and_eq_true, decide_eq_true_eq, List.all_cons, List.all_nil, Bool.or_eq_true] at this
  tauto

theorem pageTypes_of_wf {c : Cfg} (h : c.wf = true) :
    c.pageTypes.secs ≠ c.pageTypes.tcs ∧ c.pageTypes.secs ≠ c.pageTypes.reg ∧ c.pageTypes.tcs ≠ c.pageTypes.reg := by
  have := (Cfg.wf_parts h).2.2.2.2.2.2.1
  simp only [Cfg.pageTypesDistinct, Bool.and_eq_true, bne_iff_ne] at this
  exact ⟨this.1.1, this.1.2, this.2⟩

theorem tcs_of_wf {c : Cfg} (h : c.wf = true) :
    (c.tcs.state.off + c.tcs.state.size ≤ 4096 ∧ c.tcs.flags.off + c.tcs.flags.size ≤ 4096 ∧
      c.tcs.cssa.off + c.tcs.cssa.size ≤ 4096 ∧ c.tcs.aep.off + c.tcs.aep.size ≤ 4096) ∧
      c.tcs.fslimit.off + c.tcs.fslimit.size ≤ 4096 ∧ c.tcs.gslimit.off + c.tcs.gslimit.size ≤ 4096 := by
  have := (Cfg.wf_parts h).2.2.2.2.2.2.2.2.1
  simp only [Cfg.tcsOk, Bool.and_eq_true, decide_eq_true_eq, List.all_cons, List.all_nil] at this
  tauto

/-- The four TCS fields that are forced share no byte. -/
theorem tcsApart_of_wf {c : Cfg} (h : c.wf = true) :
    Cfg.fieldsApart c.tcs.state c.tcs.flags = true ∧ Cfg.fieldsApart c.tcs.flags c.tcs.cssa = true ∧
      Cfg.fieldsApart c.tcs.flags c.tcs.aep = true := by
  have := (Cfg.wf_parts h).2.2.2.2.2.2.2.2.2.2
  simp only [Cfg.tcsFieldsDisjoint, decide_eq_true_eq, List.pairwise_cons, List.mem_cons, forall_eq_or_imp] at this
  exact ⟨this.1.1, this.2.1.1, this.2.1.2.1⟩

/-! ## The operands a set of temporaries stands for -/

/-- What checks 0 to 8 leave, from the temporaries. -/
def operandsOf (t : Temps) : EaddOperands where
  laTgt := t.laTgt
  paTgt := t.paTgt
  laSrc := t.laSrc
  laSecs := t.laSecs
  paSecs := t.paSecs
  linaddr := t.info.linaddr
  si := t.si

theorem ofNat_eq_of_toNat {w n : Nat} {v : BitVec w} (h : v.toNat = n) : BitVec.ofNat w n = v := by
  rw [← h, BitVec.ofNat_toNat, BitVec.setWidth_eq]

/-- The temporaries of check 4 are what PAGEINFO holds. -/
theorem readPageInfo_of {s : State} {t : Temps} (h : Pass4 s t) : readPageInfo s t.paPi = t.info := by
  obtain ⟨-, -, h1, h2, h3, h4⟩ := h
  rw [readPageInfo, ofNat_eq_of_toNat h1, ofNat_eq_of_toNat h2, ofNat_eq_of_toNat h3, ofNat_eq_of_toNat h4]

theorem readSecInfo_of {s : State} {t : Temps} (h : Pass7 s t) : readSecInfo s t.paSi = t.si :=
  ofNat_eq_of_toNat h.2.2

theorem toNat_ofNat_readNat (m : Memory) (a n w : Nat) (h : 8 * n = w) :
    (BitVec.ofNat w (m.readNat a n)).toNat = m.readNat a n := by
  have h1 := Memory.readNat_lt m a n
  rw [show (256 : Nat) = 2 ^ 8 by decide, ← Nat.pow_mul, h] at h1
  rw [BitVec.toNat_ofNat, Nat.mod_eq_of_lt h1]

/-! ## Check 5 -/

theorem eaddPointers_of {s : State} {t : Temps} (h : Pass5 s t) :
    eaddPointers s t.info = .ok { laSrc := t.laSrc, laSecs := t.laSecs, laSi := t.laSi } := by
  obtain ⟨⟨u1, u2, u3⟩, l1, a1, l2, a2, l3, a3, a4⟩ := h
  rw [eaddPointers, (upperHalfClear_iff s _).mpr u1, (upperHalfClear_iff s _).mpr u2, (upperHalfClear_iff s _).mpr u3,
    alignedLinear_of (by decide) l1 a1, alignedLinear_of (by decide) l2 a2, alignedLinear_of (by decide) l3 a3,
    beq_iff_eq.mpr a4]
  rfl

/-- Check 5 fails: some pointer has no linear address or is misaligned, or LINADDR is misaligned. -/
theorem eaddPointers_faults {s : State} {info : PageInfo}
    (hu : UpperClear s info.srcpge ∧ UpperClear s info.secs ∧ UpperClear s info.secinfo)
    (h : OperandFaults s info.srcpge 4096 4096 ∨ OperandFaults s info.secs 4096 4096 ∨
      OperandFaults s info.secinfo 64 64 ∨ info.linaddr.toNat % 4096 ≠ 0) :
    eaddPointers s info = Check.raise .generalProtection s := by
  obtain ⟨u1, u2, u3⟩ := hu
  rw [eaddPointers, (upperHalfClear_iff s _).mpr u1, (upperHalfClear_iff s _).mpr u2, (upperHalfClear_iff s _).mpr u3]
  have split : ∀ (ea : Qword) (n align : Nat), 0 < n →
      (∃ la, alignedLinear s ea n align = .ok la ∧ ¬ OperandFaults s ea n align) ∨
        alignedLinear s ea n align = Check.raise .generalProtection s := by
    intro ea n align hn
    by_cases hf : OperandFaults s ea n align
    · exact .inr (alignedLinear_faults hn hf)
    · left
      rcases linear_cases hn ea with ⟨la, -, h2⟩ | ⟨-, h2⟩
      · refine ⟨la, alignedLinear_of hn h2 ?_, hf⟩
        by_contra hne
        exact hf (.inr ⟨la, h2, hne⟩)
      · exact absurd (.inl h2) hf
  rcases split info.srcpge 4096 4096 (by decide) with ⟨la1, e1, n1⟩ | e1
  · rcases split info.secs 4096 4096 (by decide) with ⟨la2, e2, n2⟩ | e2
    · rcases split info.secinfo 64 64 (by decide) with ⟨la3, e3, n3⟩ | e3
      · have ha : info.linaddr.toNat % 4096 ≠ 0 := by
          rcases h with h | h | h | h
          · exact absurd h n1
          · exact absurd h n2
          · exact absurd h n3
          · exact h
        have hb : (info.linaddr.toNat % 4096 == 0) = false := by simpa using ha
        rw [e1, e2, e3, hb]
        rfl
      · rw [e1, e2, e3]
        rfl
    · rw [e1, e2]
      rfl
  · rw [e1]
    rfl

theorem eaddPointers_refuses {s : State} {info : PageInfo}
    (h : ¬ (UpperClear s info.srcpge ∧ UpperClear s info.secs ∧ UpperClear s info.secinfo)) :
    eaddPointers s info = Check.refuse .mode32UpperBits := by
  have : (upperHalfClear s.mode info.srcpge && upperHalfClear s.mode info.secs && upperHalfClear s.mode info.secinfo)
      = false := by
    rw [← Bool.not_eq_true]
    simp only [Bool.and_eq_true, upperHalfClear_iff]
    tauto
  rw [eaddPointers, this]
  rfl

theorem eaddPointers_ok {s : State} {info : PageInfo} {p : EaddPointers} (h : eaddPointers s info = .ok p) :
    (UpperClear s info.srcpge ∧ UpperClear s info.secs ∧ UpperClear s info.secinfo) ∧
      LinearIs s info.srcpge 4096 p.laSrc ∧ p.laSrc.toNat % 4096 = 0 ∧
      LinearIs s info.secs 4096 p.laSecs ∧ p.laSecs.toNat % 4096 = 0 ∧
      LinearIs s info.secinfo 64 p.laSi ∧ p.laSi.toNat % 64 = 0 ∧ info.linaddr.toNat % 4096 = 0 := by
  simp only [eaddPointers, Check.bind_ok_iff, Check.allow_ok_iff, Check.require_ok_iff, Bool.and_eq_true, upperHalfClear_iff,
    beq_iff_eq, Check.pure_eq, Except.ok.injEq] at h
  obtain ⟨-, ⟨⟨u1, u2⟩, u3⟩, l1, h1, l2, h2, l3, h3, -, ha, rfl⟩ := h
  obtain ⟨i1, a1⟩ := alignedLinear_ok (by decide) h1
  obtain ⟨i2, a2⟩ := alignedLinear_ok (by decide) h2
  obtain ⟨i3, a3⟩ := alignedLinear_ok (by decide) h3
  exact ⟨⟨u1, u2, u3⟩, i1, a1, i2, a2, i3, a3, ha⟩

/-! ## Checks 1 to 8 -/

/-- The stage with checks 1 to 3 passed. -/
theorem eaddOperands_through3 {s : State} {t : Temps} (h1 : Pass1 s t) (h2 : Pass2 s t) (h3 : Pass3 s t) :
    eaddOperands s = (do
      let paPi ← resolveOutside s t.laPi s
      let info := readPageInfo s paPi
      let p ← eaddPointers s info
      let paSecs ← resolveEpc s p.laSecs
      let paSi ← resolveOutside s p.laSi s
      let si := readSecInfo s paSi
      eaddSecInfoCheck s si
      return { laTgt := t.laTgt, paTgt := t.paTgt, laSrc := p.laSrc, laSecs := p.laSecs, paSecs, linaddr := info.linaddr,
               si }) := by
  rw [eaddOperands, alignedLinear_of (by decide) h1.1 h1.2, alignedLinear_of (by decide) h2.1 h2.2, Check.ok_bind,
    Check.ok_bind, resolveEpc_of h3.1 h3.2, Check.ok_bind]

/-- The stage with checks 1 to 5 passed. -/
theorem eaddOperands_through5 {s : State} {t : Temps} (h1 : Pass1 s t) (h2 : Pass2 s t) (h3 : Pass3 s t) (h4 : Pass4 s t)
    (h5 : Pass5 s t) :
    eaddOperands s = (do
      let paSecs ← resolveEpc s t.laSecs
      let paSi ← resolveOutside s t.laSi s
      let si := readSecInfo s paSi
      eaddSecInfoCheck s si
      return { laTgt := t.laTgt, paTgt := t.paTgt, laSrc := t.laSrc, laSecs := t.laSecs, paSecs, linaddr := t.info.linaddr,
               si }) := by
  rw [eaddOperands_through3 h1 h2 h3, resolveOutside_of h4.1 h4.2.1, Check.ok_bind, readPageInfo_of h4]
  simp only [eaddPointers_of h5, Check.ok_bind]

/-- The stage with checks 1 to 7 passed: only the check of SECINFO is left. -/
theorem eaddOperands_through7 {s : State} {t : Temps} (h1 : Pass1 s t) (h2 : Pass2 s t) (h3 : Pass3 s t) (h4 : Pass4 s t)
    (h5 : Pass5 s t) (h6 : Pass6 s t) (h7 : Pass7 s t) :
    eaddOperands s = (do
      eaddSecInfoCheck s t.si
      return operandsOf t) := by
  rw [eaddOperands_through5 h1 h2 h3 h4 h5, resolveEpc_of h6.1 h6.2, Check.ok_bind, resolveOutside_of h7.1 h7.2.1,
    Check.ok_bind, readSecInfo_of h7]
  rfl

theorem eaddOperands_of {s : State} {t : Temps} (h : Through8 s t) :
    eaddOperands s = .ok (operandsOf t) := by
  obtain ⟨⟨⟨⟨-, h1, h2, h3⟩, h4, h5⟩, h6, h7⟩, h8⟩ := h
  rw [eaddOperands_through7 h1 h2 h3 h4 h5 h6 h7, eaddSecInfoCheck_of h8]
  rfl

/-- From the stage's answer: temporaries with which checks 1 to 8 passed. The record and the source page are the caller's. -/
theorem eaddOperands_ok {s : State} (h0 : Pass0 s) {o : EaddOperands}
    (h : eaddOperands s = .ok o) (r : Secs) (paSrc : Qword) :
    ∃ t, Through8 s t ∧ o = operandsOf t ∧ t.secs = r ∧ t.paSrc = paSrc := by
  simp only [eaddOperands, Check.bind_ok_iff, Check.pure_eq, Except.ok.injEq] at h
  obtain ⟨laPi, e1, laTgt, e2, paTgt, e3, paPi, e4, p, e5, paSecs, e6, paSi, e7, ⟨⟩, e8, rfl⟩ := h
  obtain ⟨l1, a1⟩ := alignedLinear_ok (by decide) e1
  obtain ⟨l2, a2⟩ := alignedLinear_ok (by decide) e2
  obtain ⟨r3, i3⟩ := resolveEpc_ok e3
  obtain ⟨r4, i4⟩ := resolveOutside_ok e4
  obtain ⟨u5, p5⟩ := eaddPointers_ok e5
  obtain ⟨r6, i6⟩ := resolveEpc_ok e6
  obtain ⟨r7, i7⟩ := resolveOutside_ok e7
  obtain ⟨z8, t8, n8⟩ := eaddSecInfoCheck_ok e8
  have hr := fun a => toNat_ofNat_readNat s.mem a 8 64 (by decide)
  exact ⟨{ laPi, laTgt, paTgt, paPi, info := readPageInfo s paPi, laSrc := p.laSrc, laSecs := p.laSecs, laSi := p.laSi,
            paSecs, paSi, si := readSecInfo s paSi, secs := r, paSrc },
    ⟨⟨⟨⟨h0, ⟨l1, a1⟩, ⟨l2, a2⟩, r3, i3⟩, ⟨r4, i4, hr _, hr _, hr _, hr _⟩, ⟨u5, p5⟩⟩, ⟨r6, i6⟩,
      ⟨r7, i7, toNat_ofNat_readNat s.mem _ 64 512 (by decide)⟩⟩, ⟨⟨z8, t8⟩, n8⟩⟩, rfl, rfl, rfl⟩

/-! ## Checks 9 to 12 -/

theorem eaddTargetAvailable_of {s : State} {laTgt paTgt : Qword} (h : targetBusy s.input paTgt = false) :
    eaddTargetAvailable s laTgt paTgt = .ok () := by
  simp [eaddTargetAvailable, h]

theorem eaddTargetAvailable_exits {s : State} {laTgt paTgt : Qword} (h : targetBusy s.input paTgt = true)
    (hv : s.vmxNonRoot = true ∧ s.epcVirtExt = true) :
    eaddTargetAvailable s laTgt paTgt = .error (.fault (vmExit (conflictExit laTgt paTgt) s)) := by
  simp [eaddTargetAvailable, h, hv]

theorem eaddTargetAvailable_faults {s : State} {laTgt paTgt : Qword} (h : targetBusy s.input paTgt = true)
    (hv : ¬ (s.vmxNonRoot = true ∧ s.epcVirtExt = true)) :
    eaddTargetAvailable s laTgt paTgt = Check.raise .generalProtection s := by
  have : (s.vmxNonRoot && s.epcVirtExt) = false := by
    rw [← Bool.not_eq_true, Bool.and_eq_true]
    exact hv
  simp [eaddTargetAvailable, h, this]

theorem eaddTargetAvailable_ok {s : State} {laTgt paTgt : Qword} (h : eaddTargetAvailable s laTgt paTgt = .ok ()) :
    targetBusy s.input paTgt = false := by
  by_contra hb
  rw [Bool.not_eq_false] at hb
  by_cases hv : s.vmxNonRoot = true ∧ s.epcVirtExt = true
  · rw [eaddTargetAvailable_exits hb hv] at h
    cases h
  · rw [eaddTargetAvailable_faults hb hv] at h
    cases h

theorem ownHoldBusy_of_ne {s : State} {paTgt paSecs : Qword} (h : paTgt ≠ paSecs) : ownHoldBusy s paTgt paSecs = false := by
  simp [ownHoldBusy, h]

theorem eaddSecsAvailable_of {s : State} {paTgt paSecs : Qword} (h : secsBusy s.input paSecs = false)
    (ho : ownHoldBusy s paTgt paSecs = false) : eaddSecsAvailable s paTgt paSecs = .ok () := by
  simp [eaddSecsAvailable, h, ho]

theorem eaddSecsAvailable_faults {s : State} {paTgt paSecs : Qword} (h : secsBusy s.input paSecs = true) :
    eaddSecsAvailable s paTgt paSecs = Check.raise .generalProtection s := by
  simp [eaddSecsAvailable, h]

theorem eaddSecsAvailable_ownHold {s : State} {paTgt paSecs : Qword} (h : secsBusy s.input paSecs = false)
    (ho : ownHoldBusy s paTgt paSecs = true) :
    eaddSecsAvailable s paTgt paSecs = Check.raise .generalProtection s.drawn := by
  simp [eaddSecsAvailable, h, ho]

theorem eaddSecsRecord_of {s : State} {t : Temps} (h : Pass12 s t) : eaddSecsRecord s t.laSecs t.paSecs = .ok t.secs := by
  obtain ⟨⟨h1, h2⟩, h3⟩ := h
  simp [eaddSecsRecord, h1, h2, h3]

theorem eaddSecsRecord_faults {s : State} {t : Temps} (h : ¬ SecsPageOk s t) :
    eaddSecsRecord s t.laSecs t.paSecs = Check.raise (.pageFault t.laSecs) s := by
  have : ((s.epcmEntry t.paSecs).valid && (s.epcmEntry t.paSecs).pt == s.cfg.pageTypes.secs) = false := by
    rw [← Bool.not_eq_true, Bool.and_eq_true, beq_iff_eq]
    exact h
  rw [eaddSecsRecord, this]
  rfl

theorem eaddSecsRecord_refuses {s : State} {t : Temps} (h : SecsPageOk s t) (hn : s.secsRecord? t.paSecs = none) :
    eaddSecsRecord s t.laSecs t.paSecs = Check.refuse .secsRecordAbsent := by
  simp [eaddSecsRecord, h.1, h.2, hn]

theorem eaddSecsRecord_ok {s : State} {laSecs paSecs : Qword} {r : Secs} (h : eaddSecsRecord s laSecs paSecs = .ok r) :
    (s.epcmEntry paSecs).valid = true ∧ (s.epcmEntry paSecs).pt = s.cfg.pageTypes.secs ∧ s.secsRecord? paSecs = some r := by
  simp only [eaddSecsRecord, Check.bind_ok_iff, Check.require_ok_iff, Bool.and_eq_true, beq_iff_eq] at h
  obtain ⟨-, ⟨h1, h2⟩, h3⟩ := h
  split at h3
  · next e =>
    rw [Check.pure_eq, Except.ok.injEq] at h3
    exact ⟨h1, h2, h3 ▸ e⟩
  · simp at h3

/-- The target and the SECS are different pages: one is not valid, the other is. -/
theorem paTgt_ne_paSecs {s : State} {t : Temps} (h10 : Pass10 s t) (h12 : SecsPageOk s t) : t.paTgt ≠ t.paSecs := by
  intro e
  rw [Pass10, e, h12.1] at h10
  exact absurd h10 (by decide)

theorem eaddPages_through10 {s : State} {t : Temps} (h9 : Pass9 s t) (h10 : Pass10 s t) :
    eaddPages s (operandsOf t) = (do
      eaddSecsAvailable s t.paTgt t.paSecs
      eaddSecsRecord s t.laSecs t.paSecs) := by
  rw [Pass10] at h10
  simp only [eaddPages, operandsOf, eaddTargetAvailable_of h9, h10, Check.ok_bind, Bool.not_false, Check.require_true]

theorem eaddPages_of {s : State} {t : Temps} (h : Through12 s t) : eaddPages s (operandsOf t) = .ok t.secs := by
  obtain ⟨⟨-, h9, h10⟩, h11, h12⟩ := h
  have hne := paTgt_ne_paSecs h10 h12.1
  rw [eaddPages_through10 h9 h10, eaddSecsAvailable_of h11 (ownHoldBusy_of_ne hne), Check.ok_bind, eaddSecsRecord_of h12]

theorem eaddPages_ok {s : State} {t : Temps} (h : eaddPages s (operandsOf t) = .ok t.secs) :
    Pass9 s t ∧ Pass10 s t ∧ Pass11 s t ∧ Pass12 s t := by
  simp only [eaddPages, eaddSecsAvailable, operandsOf, Check.bind_ok_iff, Check.require_ok_iff, Bool.not_eq_true'] at h
  obtain ⟨⟨⟩, h9, ⟨⟩, h10, ⟨⟩, ⟨⟨⟩, h11, -⟩, h12⟩ := h
  obtain ⟨v, p, r⟩ := eaddSecsRecord_ok h12
  exact ⟨eaddTargetAvailable_ok h9, h10, h11, ⟨v, p⟩, r⟩

/-! ## Checks 13 to 17 -/

/-- Byte k of the target page after the copy is byte k of the source page, and no other byte changed (spec R83). -/
theorem byte_copiedMem (s : State) (paSrc paTgt : Qword) (x : Nat) :
    (copiedMem s paSrc paTgt).byte x =
      if paTgt.toNat ≤ x ∧ x < paTgt.toNat + 4096 then s.mem.byte (paSrc.toNat + (x - paTgt.toNat)) else s.mem.byte x := by
  rw [copiedMem, Memory.byte_putPage _ _ (Memory.page_range _ _)]
  split
  · next h => rw [Memory.byte_page, if_pos (by omega)]
  · rfl

/-- A field of the copy reads as in the source page. -/
theorem readField_copiedMem (s : State) (paSrc paTgt : Qword) (f : Field) (hf : f.off + f.size ≤ 4096) :
    readField (copiedMem s paSrc paTgt) paTgt f = readField s.mem paSrc f := by
  apply Memory.readNat_congr
  intro k hk
  rw [byte_copiedMem, if_pos (by omega)]
  congr 1
  omega

/-- RESERVED of the copy is zero exactly when it is in the source page. -/
theorem maskClear_copiedMem (s : State) (paSrc paTgt : Qword) :
    maskClear ((copiedMem s paSrc paTgt).page paTgt.toNat) s.cfg.tcs.reserved = true ↔ TcsReservedZero s paSrc := by
  rw [maskClear_iff]
  have hb : ∀ k, k < 4096 → ((copiedMem s paSrc paTgt).page paTgt.toNat).byte k = s.mem.byte (paSrc.toNat + k) := by
    intro k hk
    rw [Memory.byte_page, if_pos hk, byte_copiedMem, if_pos (by omega)]
    congr 1
    omega
  constructor
  · intro h m hm k hk h1 h2
    rw [← hb k hk]
    exact h m hm k h1 h2
  · intro h m hm k h1 h2
    by_cases hk : k < 4096
    · rw [hb k hk]
      exact h m hm k hk h1 h2
    · rw [Memory.byte_page, if_neg hk]
      simp

theorem limitOk_iff (v : Nat) : limitOk v = true ↔ v % 4096 = 4095 := by
  rw [limitOk, beq_iff_eq, show (0xFFF : Nat) = 2 ^ 12 - 1 by decide, Nat.and_two_pow_sub_one_eq_mod]

/-- The limits' test of check 14. -/
theorem limits_copiedMem {s : State} (hc : s.cfg.wf = true) (paSrc paTgt : Qword) (r : Secs) :
    (r.mode64bit || limitOk (readField (copiedMem s paSrc paTgt) paTgt s.cfg.tcs.fslimit) &&
      limitOk (readField (copiedMem s paSrc paTgt) paTgt s.cfg.tcs.gslimit)) = true ↔ TcsLimitsOk s paSrc r := by
  obtain ⟨-, hf, hg⟩ := tcs_of_wf hc
  rw [readField_copiedMem _ _ _ _ hf, readField_copiedMem _ _ _ _ hg, Bool.or_eq_true, Bool.and_eq_true, limitOk_iff,
    limitOk_iff]
  cases hm : r.mode64bit <;> simp [TcsLimitsOk, hm]

/-- The test of FLAGS of check 14. -/
theorem flags_copiedMem {s : State} (hc : s.cfg.wf = true) (paSrc paTgt : Qword) :
    (clearDbgoptin s.cfg.tcs (readField (copiedMem s paSrc paTgt) paTgt s.cfg.tcs.flags) == 0) = true ↔
      TcsFlagsOk s paSrc := by
  rw [readField_copiedMem _ _ _ _ (tcs_of_wf hc).1.2.1, beq_iff_eq, clearDbgoptin_eq_zero_iff]

/-- Check 14 passes, faults with the late state, or refuses. -/
theorem eaddTypeCheck_of {s u : State} {t : Temps} (hc : s.cfg.wf = true) (h : Pass14 s t) :
    eaddTypeCheck s (operandsOf t) t.paSrc t.secs u = .ok () := by
  obtain ⟨⟨ht, hr⟩, hf⟩ := h
  rw [eaddTypeCheck]
  simp only [operandsOf, secInfoPt_eq]
  split
  · next hp =>
    obtain ⟨h1, h2⟩ := ht hp
    rw [eaddTcsCheck, (maskClear_copiedMem s t.paSrc t.paTgt).mpr h1, (limits_copiedMem hc t.paSrc t.paTgt t.secs).mpr h2,
      (flags_copiedMem hc t.paSrc t.paTgt).mpr (hf hp)]
    rfl
  · next hp =>
    have := hr hp
    cases hw : t.si.getLsbD s.cfg.secInfo.w
    · rfl
    · rw [this hw]
      rfl

theorem eaddTypeCheck_faults {s u : State} {t : Temps} (hc : s.cfg.wf = true) (h : ¬ PageTypeOk s t) :
    eaddTypeCheck s (operandsOf t) t.paSrc t.secs u = Check.raise .generalProtection u := by
  rw [eaddTypeCheck]
  simp only [operandsOf, secInfoPt_eq]
  split
  · next hp =>
    have hnot : ¬ (TcsReservedZero s t.paSrc ∧ TcsLimitsOk s t.paSrc t.secs) := fun h' =>
      h ⟨fun _ => h', fun hn => absurd hp hn⟩
    rw [eaddTcsCheck]
    by_cases h1 : TcsReservedZero s t.paSrc
    · have h2 : ¬ TcsLimitsOk s t.paSrc t.secs := fun h2 => hnot ⟨h1, h2⟩
      rw [(maskClear_copiedMem s t.paSrc t.paTgt).mpr h1,
        Bool.eq_false_iff.mpr fun e => h2 ((limits_copiedMem hc t.paSrc t.paTgt t.secs).mp e)]
      rfl
    · rw [Bool.eq_false_iff.mpr fun e => h1 ((maskClear_copiedMem s t.paSrc t.paTgt).mp e)]
      rfl
  · next hp =>
    have hnot : ¬ (t.si.getLsbD s.cfg.secInfo.w = true → t.si.getLsbD s.cfg.secInfo.r = true) := fun h' =>
      h ⟨fun hn => absurd hn hp, fun _ => h'⟩
    rw [Classical.not_imp, Bool.not_eq_true] at hnot
    rw [hnot.1, hnot.2]
    rfl

theorem eaddTypeCheck_refuses {s u : State} {t : Temps} (hc : s.cfg.wf = true) (h : PageTypeOk s t) (hp : IsTcs s t)
    (hf : ¬ TcsFlagsOk s t.paSrc) :
    eaddTypeCheck s (operandsOf t) t.paSrc t.secs u = Check.refuse .tcsFlagsReservedBits := by
  obtain ⟨h1, h2⟩ := h.1 hp
  rw [eaddTypeCheck]
  simp only [operandsOf, secInfoPt_eq]
  rw [if_pos hp, eaddTcsCheck, (maskClear_copiedMem s t.paSrc t.paTgt).mpr h1,
    (limits_copiedMem hc t.paSrc t.paTgt t.secs).mpr h2,
    Bool.eq_false_iff.mpr fun e => hf ((flags_copiedMem hc t.paSrc t.paTgt).mp e)]
  rfl

theorem eaddTypeCheck_ok {s u : State} {t : Temps} (hc : s.cfg.wf = true)
    (h : eaddTypeCheck s (operandsOf t) t.paSrc t.secs u = .ok ()) : Pass14 s t := by
  by_cases h1 : PageTypeOk s t
  · refine ⟨h1, fun hp => ?_⟩
    by_contra hf
    rw [eaddTypeCheck_refuses hc h1 hp hf] at h
    simp at h
  · rw [eaddTypeCheck_faults hc h1] at h
    simp at h

theorem eaddRangeCheck_of {u : State} {t : Temps} (h : Pass15 t) : eaddRangeCheck t.info.linaddr t.secs u = .ok () := by
  obtain ⟨h1, h2, h3⟩ := h
  rw [eaddRangeCheck, decide_eq_true h1, decide_eq_true h2, decide_eq_true h3]
  rfl

theorem eaddRangeCheck_refuses {u : State} {linaddr : Qword} {r : Secs} (h : 2 ^ 64 ≤ r.baseAddr.toNat + r.size.toNat) :
    eaddRangeCheck linaddr r u = Check.refuse .secsRangeOverflow := by
  rw [eaddRangeCheck, decide_eq_false (by omega)]
  rfl

theorem eaddRangeCheck_faults {u : State} {linaddr : Qword} {r : Secs} (h : r.baseAddr.toNat + r.size.toNat < 2 ^ 64)
    (ho : linaddr.toNat < r.baseAddr.toNat ∨ r.baseAddr.toNat + r.size.toNat ≤ linaddr.toNat) :
    eaddRangeCheck linaddr r u = Check.raise .generalProtection u := by
  have : (decide (r.baseAddr.toNat ≤ linaddr.toNat) && decide (linaddr.toNat < r.baseAddr.toNat + r.size.toNat)) = false := by
    rw [← Bool.not_eq_true, Bool.and_eq_true, decide_eq_true_eq, decide_eq_true_eq]
    omega
  rw [eaddRangeCheck, decide_eq_true h, this]
  rfl

theorem eaddRangeCheck_ok {u : State} {linaddr : Qword} {r : Secs} (h : eaddRangeCheck linaddr r u = .ok ()) :
    r.baseAddr.toNat + r.size.toNat < 2 ^ 64 ∧ r.baseAddr.toNat ≤ linaddr.toNat ∧
      linaddr.toNat < r.baseAddr.toNat + r.size.toNat := by
  simp only [eaddRangeCheck, Check.bind_ok_iff, Check.allow_ok_iff, Check.require_ok_iff, Bool.and_eq_true,
    decide_eq_true_eq] at h
  exact ⟨h.choose_spec.1, h.choose_spec.2⟩

theorem counterOk_iff (c : Cfg) (n : Nat) : counterOk c n = true ↔ c.counterMax ≠ some n := by
  rw [counterOk]
  cases c.counterMax with
  | none => simp
  | some m => simp [bne_iff_ne, ne_comm (a := n)]

/-- The stage with check 13 passed. -/
theorem eaddContents_through13 {s : State} {t : Temps} (h : Pass13 s t) :
    eaddContents s (operandsOf t) t.secs = (do
      eaddTypeCheck s (operandsOf t) t.paSrc t.secs (s.spoilPage t.paTgt)
      eaddRangeCheck t.info.linaddr t.secs (s.spoilPage t.paTgt)
      Check.require (!measureBusy s.input t.paSecs) .generalProtection (s.spoilPage t.paTgt)
      Check.require (!t.secs.init) .generalProtection (s.spoilPage t.paTgt)
      Check.allow (counterOk s.cfg t.secs.mrcount) .counterOverflow
      return t.paSrc) := by
  have e : resolveOutside s (operandsOf t).laSrc (s.spoilPage (operandsOf t).paTgt) = .ok t.paSrc :=
    resolveOutside_of h.1 h.2
  rw [eaddContents, e]
  rfl

theorem eaddContents_of {s : State} {t : Temps} (hc : s.cfg.wf = true) (h : AllPass s t) :
    eaddContents s (operandsOf t) t.secs = .ok t.paSrc := by
  obtain ⟨⟨⟨-, h13⟩, h14, h15⟩, h16, h17, hm⟩ := h
  rw [Pass16] at h16
  rw [Pass17] at h17
  rw [eaddContents_through13 h13, eaddTypeCheck_of hc h14, eaddRangeCheck_of h15, h16, h17, (counterOk_iff _ _).mpr hm]
  rfl

theorem eaddContents_ok {s : State} {t : Temps} (hc : s.cfg.wf = true)
    (h : eaddContents s (operandsOf t) t.secs = .ok t.paSrc) :
    Pass13 s t ∧ Pass14 s t ∧ Pass15 t ∧ Pass16 s t ∧ Pass17 t ∧ CounterFree s t := by
  have h13 : Pass13 s t := by
    simp only [eaddContents, Check.bind_ok_iff, Check.pure_eq, Except.ok.injEq] at h
    obtain ⟨pa, e, ⟨⟩, -, ⟨⟩, -, ⟨⟩, -, ⟨⟩, -, ⟨⟩, -, rfl⟩ := h
    exact resolveOutside_ok e
  rw [eaddContents_through13 h13] at h
  simp only [Check.bind_ok_iff, Check.require_ok_iff, Check.allow_ok_iff, Bool.not_eq_true', Check.pure_eq, and_true] at h
  obtain ⟨⟨⟩, h14, ⟨⟩, h15, ⟨⟩, h16, ⟨⟩, h17, ⟨⟩, hm⟩ := h
  exact ⟨h13, eaddTypeCheck_ok hc h14, eaddRangeCheck_ok h15, h16, h17, (counterOk_iff _ _).mp hm⟩

/-! ## The execution -/

theorem exec_encls (s : State) : exec .encls s = Check.outcome (do eaddAdmission s; eadd s) := rfl

/-- With admission passed, the execution is the leaf's. -/
theorem exec_encls_of_admitted {s : State} (h : Pass0 s) : exec .encls s = Check.outcome (eadd s) := by
  rw [exec_encls, eaddAdmission_of h]
  rfl

/-- With checks 0 to 8 passed, what is left of the execution. -/
theorem exec_encls_of_through8 {s : State} {t : Temps} (h : Through8 s t) :
    exec .encls s = Check.outcome (do
      let r ← eaddPages s (operandsOf t)
      let paSrc ← eaddContents s (operandsOf t) r
      return eaddEffects s (operandsOf t) r paSrc) := by
  rw [exec_encls_of_admitted h.1.1.1.1, eadd, eaddOperands_of h]
  rfl

/-- With checks 0 to 12 passed, what is left of the execution. -/
theorem exec_encls_of_through12 {s : State} {t : Temps} (h : Through12 s t) :
    exec .encls s = Check.outcome (do
      let paSrc ← eaddContents s (operandsOf t) t.secs
      return eaddEffects s (operandsOf t) t.secs paSrc) := by
  rw [exec_encls_of_through8 h.1.1, eaddPages_of h]
  rfl

/-- An execution with every check passed goes on, with the effects. -/
theorem exec_encls_of_allPass {s : State} {t : Temps} (hc : s.cfg.wf = true) (h : AllPass s t) :
    exec .encls s = .next (eaddEffects s (operandsOf t) t.secs t.paSrc) := by
  have h12 := h.1.1.1
  rw [exec_encls_of_admitted h12.1.1.1.1.1.1, eadd, eaddOperands_of h12.1.1, Check.ok_bind,
    eaddPages_of h12, Check.ok_bind, eaddContents_of hc h]
  rfl

/-- An execution that goes on has passed the stages one after the other, and its next state is the effects. -/
theorem exec_encls_next_stages {s u : State} (h : exec .encls s = .next u) :
    ∃ o r paSrc, Pass0 s ∧ eaddOperands s = .ok o ∧ eaddPages s o = .ok r ∧ eaddContents s o r = .ok paSrc ∧
      u = eaddEffects s o r paSrc := by
  rw [exec_encls, Check.outcome_next_iff, Check.bind_ok_iff] at h
  obtain ⟨⟨⟩, h0, h⟩ := h
  simp only [eadd, Check.bind_ok_iff, Check.pure_eq, Except.ok.injEq] at h
  obtain ⟨o, ho, r, hr, paSrc, hs, rfl⟩ := h
  exact ⟨o, r, paSrc, eaddAdmission_ok h0, ho, hr, hs, rfl⟩

/-- EVERYTHING AN EXECUTION THAT GOES ON CAN DO: every check of R93 has passed, with some temporaries, and the next state is
the effects on them. -/
theorem exec_encls_next {s u : State} (hc : s.cfg.wf = true) (h : exec .encls s = .next u) :
    ∃ t, AllPass s t ∧ u = eaddEffects s (operandsOf t) t.secs t.paSrc := by
  obtain ⟨o, r, paSrc, p0, ho, hr, hs, rfl⟩ := exec_encls_next_stages h
  obtain ⟨t, h8, rfl, rfl, rfl⟩ := eaddOperands_ok p0 ho r paSrc
  obtain ⟨h9, h10, h11, h12⟩ := eaddPages_ok hr
  obtain ⟨h13, h14, h15, h16, h17, hm⟩ := eaddContents_ok hc hs
  exact ⟨t, ⟨⟨⟨⟨⟨h8, h9, h10⟩, h11, h12⟩, h13⟩, h14, h15⟩, h16, h17, hm⟩, rfl⟩

/-- A step that goes on has executed ENCLS and then brought the next input into force. -/
theorem step_next {s u : State} (h : step s = .next u) : ∃ v, exec .encls s = .next v ∧ u = v.betweenSteps := by
  rw [step] at h
  split at h
  · cases h
  · next i _ =>
    cases i
    split at h
    · next v hv =>
      cases h
      exact ⟨v, hv, rfl⟩
    · cases h
    · cases h

/-! ## The effects, field by field -/

section Effects

variable (s : State) (o : EaddOperands) (r : Secs) (paSrc : Qword)

@[simp] theorem eaddEffects_regs : (eaddEffects s o r paSrc).regs = s.regs := rfl

@[simp] theorem eaddEffects_rip : (eaddEffects s o r paSrc).rip = s.ripPlus s.cfg.ilen := rfl

@[simp] theorem eaddEffects_rflags : (eaddEffects s o r paSrc).rflags = s.rflags := rfl

@[simp] theorem eaddEffects_cpl : (eaddEffects s o r paSrc).cpl = s.cpl := rfl

@[simp] theorem eaddEffects_mode : (eaddEffects s o r paSrc).mode = s.mode := rfl

@[simp] theorem eaddEffects_ds : (eaddEffects s o r paSrc).ds = s.ds := rfl

@[simp] theorem eaddEffects_vmxNonRoot : (eaddEffects s o r paSrc).vmxNonRoot = s.vmxNonRoot := rfl

@[simp] theorem eaddEffects_epcVirtExt : (eaddEffects s o r paSrc).epcVirtExt = s.epcVirtExt := rfl

@[simp] theorem eaddEffects_vmcs : (eaddEffects s o r paSrc).vmcs = s.vmcs := rfl

@[simp] theorem eaddEffects_mem : (eaddEffects s o r paSrc).mem = eaddMem s o paSrc := rfl

/-- The target's new entry is never the empty one, so it is listed. -/
theorem eaddEffects_epcm : (eaddEffects s o r paSrc).epcm = put s.epcm o.paTgt.toNat
    (addedEntry s.cfg.secInfo (s.epcmEntry o.paTgt) (forcedSecInfo s.cfg o.si) o.linaddr
      (s.secsIdentifier o.paSecs r)) := by
  have hne : addedEntry s.cfg.secInfo (s.epcmEntry o.paTgt) (forcedSecInfo s.cfg o.si) o.linaddr
      (s.secsIdentifier o.paSecs r) ≠ .empty :=
    fun e => by cases congrArg EpcmEntry.valid e
  exact if_neg (t := remove s.epcm o.paTgt.toNat) hne

@[simp] theorem eaddEffects_secs : (eaddEffects s o r paSrc).secs =
    put s.secs o.paSecs.toNat (measuredSecs s.cfg r o.linaddr (forcedSecInfo s.cfg o.si)) := rfl

@[simp] theorem eaddEffects_cfg : (eaddEffects s o r paSrc).cfg = s.cfg := rfl

@[simp] theorem eaddEffects_input : (eaddEffects s o r paSrc).input = s.input := rfl

@[simp] theorem eaddEffects_upcoming : (eaddEffects s o r paSrc).upcoming = s.upcoming := rfl

@[simp] theorem eaddEffects_text : (eaddEffects s o r paSrc).text = s.text := rfl

@[simp] theorem eaddEffects_draws : (eaddEffects s o r paSrc).draws = s.draws := rfl

@[simp] theorem secsIdentifier_eaddEffects (pa : Qword) (r' : Secs) :
    (eaddEffects s o r paSrc).secsIdentifier pa r' = s.secsIdentifier pa r' := rfl

/-- Measuring a page does not change which SECS it is. -/
@[simp] theorem secsIdentifier_measuredSecs (pa linaddr : Qword) (si : BitVec 512) :
    s.secsIdentifier pa (measuredSecs s.cfg r linaddr si) = s.secsIdentifier pa r := rfl

end Effects

/-! ## EPCM and SECS reads after writes -/

theorem toNat_ne {p q : Qword} (h : p ≠ q) : p.toNat ≠ q.toNat := fun e => h (BitVec.eq_of_toNat_eq e)

theorem epcmEntry_setEpcm_self (s : State) (pa : Qword) (e : EpcmEntry) : (s.setEpcm pa e).epcmEntry pa = e := by
  rw [State.epcmEntry, State.setEpcm_epcm]
  split
  · next h => simp [h]
  · simp

theorem epcmEntry_setEpcm_of_ne (s : State) {pa p : Qword} (e : EpcmEntry) (h : p ≠ pa) :
    (s.setEpcm pa e).epcmEntry p = s.epcmEntry p := by
  rw [State.epcmEntry, State.setEpcm_epcm]
  split
  · rw [find?_remove_of_ne _ (toNat_ne h)]
    rfl
  · rw [find?_put_of_ne _ _ (toNat_ne h)]
    rfl

theorem secsRecord?_setSecs_self (s : State) (pa : Qword) (r : Secs) : (s.setSecs pa r).secsRecord? pa = some r := by
  simp [State.secsRecord?]

theorem secsRecord?_setSecs_of_ne (s : State) {pa p : Qword} (r : Secs) (h : p ≠ pa) :
    (s.setSecs pa r).secsRecord? p = s.secsRecord? p := by
  rw [State.secsRecord?, State.setSecs_secs, find?_put_of_ne _ _ (toNat_ne h)]
  rfl

theorem epcmEntry_eaddEffects (s : State) (o : EaddOperands) (r : Secs) (paSrc p : Qword) :
    (eaddEffects s o r paSrc).epcmEntry p = (s.setEpcm o.paTgt
      (addedEntry s.cfg.secInfo (s.epcmEntry o.paTgt) (forcedSecInfo s.cfg o.si) o.linaddr
      (s.secsIdentifier o.paSecs r))).epcmEntry p :=
  rfl

/-- The EPCM after the effects: the target's entry, every other as before (spec/40_encls_eadd.md R90). -/
theorem epcmEntry_eaddEffects_self (s : State) (o : EaddOperands) (r : Secs) (paSrc : Qword) :
    (eaddEffects s o r paSrc).epcmEntry o.paTgt =
      addedEntry s.cfg.secInfo (s.epcmEntry o.paTgt) (forcedSecInfo s.cfg o.si) o.linaddr
      (s.secsIdentifier o.paSecs r) := by
  rw [epcmEntry_eaddEffects, epcmEntry_setEpcm_self]

theorem epcmEntry_eaddEffects_of_ne (s : State) (o : EaddOperands) (r : Secs) (paSrc : Qword) {p : Qword} (h : p ≠ o.paTgt) :
    (eaddEffects s o r paSrc).epcmEntry p = s.epcmEntry p := by
  rw [epcmEntry_eaddEffects, epcmEntry_setEpcm_of_ne _ _ h]

/-- The SECS records after the effects: the measured one, every other as before (spec/40_encls_eadd.md R89). -/
theorem secsRecord?_eaddEffects_self (s : State) (o : EaddOperands) (r : Secs) (paSrc : Qword) :
    (eaddEffects s o r paSrc).secsRecord? o.paSecs =
      some (measuredSecs s.cfg r o.linaddr (forcedSecInfo s.cfg o.si)) := by
  simp [State.secsRecord?]

theorem secsRecord?_eaddEffects_of_ne (s : State) (o : EaddOperands) (r : Secs) (paSrc : Qword) {p : Qword}
    (h : p ≠ o.paSecs) : (eaddEffects s o r paSrc).secsRecord? p = s.secsRecord? p := by
  rw [State.secsRecord?, eaddEffects_secs, find?_put_of_ne _ _ (toNat_ne h)]
  rfl

/-! ## Memory after the effects -/

/-- Bytes outside the target page are as before (spec/10_state.md R26). -/
theorem byte_eaddMem_of_outside {s : State} (hc : s.cfg.wf = true) (o : EaddOperands) (paSrc : Qword) {x : Nat}
    (h : x < o.paTgt.toNat ∨ o.paTgt.toNat + 4096 ≤ x) : (eaddMem s o paSrc).byte x = s.mem.byte x := by
  have hcopy : (copiedMem s paSrc o.paTgt).byte x = s.mem.byte x := by
    rw [byte_copiedMem, if_neg (by omega)]
  rw [eaddMem]
  split
  · rw [byte_forceTcs_of_outside _ _ _ (tcs_of_wf hc).1 h, hcopy]
  · exact hcopy

theorem copiedMem_wf {s : State} (h : s.mem.wf = true) (paSrc paTgt : Qword) : (copiedMem s paSrc paTgt).wf = true :=
  Memory.putPage_wf h (Memory.page_wf h _) (Memory.page_range _ _) _

theorem eaddMem_wf {s : State} (h : s.mem.wf = true) (o : EaddOperands) (paSrc : Qword) : (eaddMem s o paSrc).wf = true := by
  rw [eaddMem]
  split
  · exact forceTcs_wf _ _ (copiedMem_wf h _ _)
  · exact copiedMem_wf h _ _

theorem spoilPage_wf {s : State} (h : s.mem.wf = true) (pa : Qword) : (s.spoilPage pa).mem.wf = true :=
  Memory.putPage_wf h (Memory.freePage_wf _) (Memory.freePage_range _) _

/-- A spoilt page is the only thing a spoilt state differs in. -/
theorem sameButPage_spoilPage (s : State) (pa : Qword) : SameButPage s (s.spoilPage pa) pa := by
  refine ⟨fun a ha => ?_, rfl⟩
  rw [State.spoilPage_mem, Memory.byte_putPage _ _ (Memory.freePage_range _), if_neg (by omega)]

end Sys2Proof.Machine
end

