-- ==== Sys2Proof/Laws/Faults.lean ====
section
/-! SUPPORT. How an execution of the leaf faults: which exception each stage can raise and with which state. The last lemma says
once everything an execution that faults can do. -/

namespace Sys2Proof.Machine

open Sys2Proof.Safety

theorem Check.bind_fault {α β : Type} {x : Check α} {g : α → Check β} {f : Fault} (h : (x >>= g) = .error (.fault f)) :
    x = .error (.fault f) ∨ ∃ a, x = .ok a ∧ g a = .error (.fault f) := by
  cases x with
  | error e => exact .inl (by simpa using h)
  | ok a => exact .inr ⟨a, rfl, h⟩

theorem Check.raise_fault {α : Type} {e : Exception} {s : State} {f : Fault}
    (h : (Check.raise e s : Check α) = .error (.fault f)) : f = Machine.raise e s := by
  cases h; rfl

theorem Check.require_fault {c : Bool} {e : Exception} {s : State} {f : Fault}
    (h : Check.require c e s = .error (.fault f)) : f = Machine.raise e s := by
  cases c
  · exact Check.raise_fault h
  · cases h

theorem Check.allow_no_fault {c : Bool} {r : Refusal} {f : Fault} : Check.allow c r ≠ .error (.fault f) := by
  cases c <;> nofun

theorem linear_fault {s : State} {ea : Qword} {n : Nat} {f : Fault} (h : linear s ea n = .error (.fault f)) :
    f = raise .generalProtection s := by
  rw [linear] at h
  split at h <;> split at h <;> cases h <;> rfl

theorem alignedLinear_fault {s : State} {ea : Qword} {n align : Nat} {f : Fault}
    (h : alignedLinear s ea n align = .error (.fault f)) : f = raise .generalProtection s := by
  rcases Check.bind_fault h with h | ⟨_, -, h⟩
  · exact linear_fault h
  · rcases Check.bind_fault h with h | ⟨_, -, h⟩
    · exact Check.require_fault h
    · cases h

theorem resolveEpc_fault {s : State} {lin : Qword} {f : Fault} (h : resolveEpc s lin = .error (.fault f)) :
    f = raise (.pageFault lin) s := by
  rw [resolveEpc] at h
  split at h
  · cases h; rfl
  · split at h <;> cases h; rfl

theorem resolveOutside_fault {s u : State} {lin : Qword} {f : Fault} (h : resolveOutside s lin u = .error (.fault f)) :
    f = raise (.pageFault lin) u := by
  rw [resolveOutside] at h
  split at h
  · cases h; rfl
  · split at h <;> cases h

theorem eaddPointers_fault {s : State} {info : PageInfo} {f : Fault} (h : eaddPointers s info = .error (.fault f)) :
    f = raise .generalProtection s := by
  rcases Check.bind_fault h with h | ⟨_, -, h⟩
  · exact absurd h Check.allow_no_fault
  rcases Check.bind_fault h with h | ⟨_, -, h⟩
  · exact alignedLinear_fault h
  rcases Check.bind_fault h with h | ⟨_, -, h⟩
  · exact alignedLinear_fault h
  rcases Check.bind_fault h with h | ⟨_, -, h⟩
  · exact alignedLinear_fault h
  rcases Check.bind_fault h with h | ⟨_, -, h⟩
  · exact Check.require_fault h
  · cases h

theorem eaddOperands_fault {s : State} {f : Fault} (h : eaddOperands s = .error (.fault f)) : ∃ e, f = raise e s := by
  rcases Check.bind_fault h with h | ⟨_, -, h⟩
  · exact ⟨_, alignedLinear_fault h⟩
  rcases Check.bind_fault h with h | ⟨_, -, h⟩
  · exact ⟨_, alignedLinear_fault h⟩
  rcases Check.bind_fault h with h | ⟨_, -, h⟩
  · exact ⟨_, resolveEpc_fault h⟩
  rcases Check.bind_fault h with h | ⟨_, -, h⟩
  · exact ⟨_, resolveOutside_fault h⟩
  rcases Check.bind_fault h with h | ⟨_, -, h⟩
  · exact ⟨_, eaddPointers_fault h⟩
  rcases Check.bind_fault h with h | ⟨_, -, h⟩
  · exact ⟨_, resolveEpc_fault h⟩
  rcases Check.bind_fault h with h | ⟨_, -, h⟩
  · exact ⟨_, resolveOutside_fault h⟩
  rcases Check.bind_fault h with h | ⟨_, -, h⟩
  · rcases Check.bind_fault h with h | ⟨_, -, h⟩
    · exact ⟨_, Check.require_fault h⟩
    · exact absurd h Check.allow_no_fault
  · cases h

theorem eaddAdmission_fault {s : State} {f : Fault} (h : eaddAdmission s = .error (.fault f)) : f = raise .invalidOpcode s := by
  rcases Check.bind_fault h with h | ⟨_, -, h⟩
  · exact absurd h Check.allow_no_fault
  rcases Check.bind_fault h with h | ⟨_, -, h⟩
  · exact Check.require_fault h
  rcases Check.bind_fault h with h | ⟨_, -, h⟩
  · exact absurd h Check.allow_no_fault
  · exact absurd h Check.allow_no_fault

theorem eaddPages_fault {s : State} {o : EaddOperands} {f : Fault} (h : eaddPages s o = .error (.fault f)) :
    f = vmExit (conflictExit o.laTgt o.paTgt) s ∨ ∃ e u, (u = s ∨ u = s.drawn) ∧ f = raise e u := by
  rcases Check.bind_fault h with h | ⟨_, -, h⟩
  · rw [eaddTargetAvailable] at h
    split at h
    · split at h <;> cases h
      · exact .inl rfl
      · exact .inr ⟨_, _, .inl rfl, rfl⟩
    · cases h
  right
  rcases Check.bind_fault h with h | ⟨_, -, h⟩
  · exact ⟨_, _, .inl rfl, Check.require_fault h⟩
  rcases Check.bind_fault h with h | ⟨_, -, h⟩
  · rcases Check.bind_fault h with h | ⟨_, -, h⟩
    · exact ⟨_, _, .inl rfl, Check.require_fault h⟩
    · exact ⟨_, _, .inr rfl, Check.require_fault h⟩
  rcases Check.bind_fault h with h | ⟨_, -, h⟩
  · exact ⟨_, _, .inl rfl, Check.require_fault h⟩
  · split at h <;> cases h

theorem eaddTypeCheck_fault {s u : State} {o : EaddOperands} {paSrc : Qword} {r : Secs} {f : Fault}
    (h : eaddTypeCheck s o paSrc r u = .error (.fault f)) : f = raise .generalProtection u := by
  rw [eaddTypeCheck] at h
  split at h
  · rcases Check.bind_fault h with h | ⟨_, -, h⟩
    · exact Check.require_fault h
    rcases Check.bind_fault h with h | ⟨_, -, h⟩
    · exact Check.require_fault h
    · exact absurd h Check.allow_no_fault
  · exact Check.require_fault h

theorem eaddContents_fault {s : State} {o : EaddOperands} {r : Secs} {f : Fault}
    (h : eaddContents s o r = .error (.fault f)) : ∃ e, f = raise e (s.spoilPage o.paTgt) := by
  rcases Check.bind_fault h with h | ⟨_, -, h⟩
  · exact ⟨_, resolveOutside_fault h⟩
  rcases Check.bind_fault h with h | ⟨_, -, h⟩
  · exact ⟨_, eaddTypeCheck_fault h⟩
  rcases Check.bind_fault h with h | ⟨_, -, h⟩
  · rcases Check.bind_fault h with h | ⟨_, -, h⟩
    · exact absurd h Check.allow_no_fault
    · exact ⟨_, Check.require_fault h⟩
  rcases Check.bind_fault h with h | ⟨_, -, h⟩
  · exact ⟨_, Check.require_fault h⟩
  rcases Check.bind_fault h with h | ⟨_, -, h⟩
  · exact ⟨_, Check.require_fault h⟩
  rcases Check.bind_fault h with h | ⟨_, -, h⟩
  · exact absurd h Check.allow_no_fault
  · cases h

/-! ## The execution -/

theorem Check.outcome_fault {x : Check State} {f : Fault} (h : Check.outcome x = .fault f) : x = .error (.fault f) := by
  rcases x with (g | r) | s <;> simp_all [Check.outcome]

/-- EVERYTHING AN EXECUTION THAT FAULTS CAN DO (spec/40_encls_eadd.md R94): the VM exit of check 9; an exception before check
13, with the state as it was but for the count of free values; or an exception after checks 0 to 12 have passed, with the target
page's content free. -/
theorem exec_encls_fault {s : State} {f : Fault} (h : exec .encls s = .fault f) :
    (∃ t, Through8 s t ∧ f = vmExit (conflictExit t.laTgt t.paTgt) s) ∨
      (∃ e u, (u = s ∨ u = s.drawn) ∧ f = raise e u ∧ ∀ t, ¬ Through12 s t) ∨
      ∃ t e, Through12 s t ∧ f = raise e (s.spoilPage t.paTgt) := by
  have h := Check.outcome_fault (exec_encls s ▸ h)
  have key : ∀ t, Through12 s t → ∃ e, f = raise e (s.spoilPage t.paTgt) := by
    intro t ht
    rw [eaddAdmission_of ht.1.1.1.1.1.1, Check.ok_bind, eadd, eaddOperands_of ht.1.1, Check.ok_bind,
      eaddPages_of ht, Check.ok_bind] at h
    rcases Check.bind_fault h with h | ⟨_, -, h⟩
    · exact eaddContents_fault h
    · cases h
  by_cases ht : ∃ t, Through12 s t
  · obtain ⟨t, ht⟩ := ht
    obtain ⟨e, he⟩ := key t ht
    exact .inr (.inr ⟨t, e, ht, he⟩)
  rw [not_exists] at ht
  rcases Check.bind_fault h with h | ⟨⟨⟩, h0, h⟩
  · exact .inr (.inl ⟨_, _, .inl rfl, eaddAdmission_fault h, ht⟩)
  rcases Check.bind_fault h with h | ⟨o, ho, h⟩
  · obtain ⟨e, he⟩ := eaddOperands_fault h
    exact .inr (.inl ⟨_, _, .inl rfl, he, ht⟩)
  obtain ⟨t, h8, rfl, ht2, -⟩ := eaddOperands_ok (eaddAdmission_ok h0) ho ⟨0, 0, false, default, 0, false, 0⟩ 0
  rcases Check.bind_fault h with h | ⟨r, hr, h⟩
  · rcases eaddPages_fault h with h | ⟨e, u, hu, he⟩
    · exact .inl ⟨t, h8, h⟩
    · exact .inr (.inl ⟨e, u, hu, he, ht⟩)
  · exfalso
    exact ht { t with secs := r } ⟨⟨h8, (eaddPages_ok (t := { t with secs := r }) hr).1, (eaddPages_ok (t := { t with secs := r }) hr).2.1⟩, (eaddPages_ok (t := { t with secs := r }) hr).2.2⟩

end Sys2Proof.Machine
end

