-- ==== Sys2Proof/Laws/PerInstr.lean ====
section
/-! SUPPORT. Statements made once per instruction, about the instruction as syntax. -/

namespace Sys2Proof.Laws

theorem decodePrefix_append (code rest : List Byte) : decodePrefix code (code ++ rest) = .ok rest := by
  induction code with
  | nil => rfl
  | cons c code ih => simpa [decodePrefix] using ih

namespace Encoded

/-- The instruction is well-formed, and its bytes, at any byte string the configuration gives ENCLS and with any bytes after
them, decode to it (spec/30_encoding.md R61, R63). -/
def Statement (i : Instr) : Prop :=
  i.wf = true ∧ ∀ code rest, decode code (encode code i ++ rest) = .ok (i, rest)

theorem encls : Statement .encls :=
  ⟨rfl, fun code rest => by rw [decode, encode, decodePrefix_append]⟩

end Encoded

end Sys2Proof.Laws
end

