-- ==== Sys2Proof/Laws/Sha256.lean ====
section
/-! SUPPORT. The bit functions of SHA256UPDATE in the words of spec/40_encls_eadd.md R92. -/

namespace Sys2Proof.Machine.Sha256

theorem choose_eq (x y z : Dword) : choose x y z = (x &&& y) ^^^ (~~~x &&& z) := by
  apply BitVec.eq_of_getLsbD_eq
  intro i hi
  simp only [choose, BitVec.getLsbD_xor, BitVec.getLsbD_and, BitVec.getLsbD_not, hi, decide_true, Bool.true_and]
  cases x.getLsbD i <;> cases y.getLsbD i <;> cases z.getLsbD i <;> rfl

theorem majority_eq (x y z : Dword) : majority x y z = (x &&& y) ^^^ (x &&& z) ^^^ (y &&& z) := by
  apply BitVec.eq_of_getLsbD_eq
  intro i _
  simp only [majority, BitVec.getLsbD_xor, BitVec.getLsbD_and, BitVec.getLsbD_or]
  cases x.getLsbD i <;> cases y.getLsbD i <;> cases z.getLsbD i <;> rfl

/-- Two rotations and three, as `s0`, `s1` and `S0`, `S1` use them. -/
theorem rotations_pair (x : Dword) (a b : Nat) : rotations x [a, b] = x.rotateRight a ^^^ x.rotateRight b := by
  simp [rotations]

theorem rotations_triple (x : Dword) (a b c : Nat) :
    rotations x [a, b, c] = x.rotateRight a ^^^ (x.rotateRight b ^^^ x.rotateRight c) := by
  simp [rotations]

end Sys2Proof.Machine.Sha256
end

