-- ==== Sys2Proof/Tests/Slice0.lean ====
section
/-! SUPPORT. Tests and witnesses. The expected values come from spec/95_test_vectors.md (M1, P1, P2 and the vectors V1 to V66)
and from the encoding of spec/30_encoding.md R61. `witness_<Name>` meets the hypotheses of the obligation of that name, one
theorem or one conjunct per clause. -/

namespace Sys2Proof.Tests

open Sys2Proof.Machine Sys2Proof.Safety

set_option Elab.async false

/-! ## Well-formedness: one ill-formed term for each check -/

theorem test_wf_instr : Instr.wf .encls = true := rfl

theorem test_wf_default : Cfg.default.wf = true := by decide +kernel

theorem test_wf_length : Cfg.lengthOk { Cfg.default with ilen := 4 } = false ∧
    Cfg.lengthOk { Cfg.default with ilen := 0, enclsBytes := [] } = false := by decide +kernel

theorem test_wf_epc : Cfg.epcOk { Cfg.default with epc := [0x80000800] } = false := by decide +kernel

theorem test_wf_width : Cfg.widthOk { Cfg.default with linWidth := 65 } = false ∧
    Cfg.widthOk { Cfg.default with linWidth := 0 } = false := by decide +kernel

theorem test_wf_pageInfo : Cfg.pageInfoOk { Cfg.default with pageInfo := ⟨0, 8, 16, 25⟩ } = false := by decide +kernel

theorem test_wf_secInfoFields :
    Cfg.secInfoFieldsOk { Cfg.default with secInfo := { Cfg.default.secInfo with w := 0 } } = false ∧
      Cfg.secInfoFieldsOk { Cfg.default with secInfo := { Cfg.default.secInfo with r := 8 } } = false := by decide +kernel

theorem test_wf_secInfoMask :
    Cfg.secInfoMaskOk { Cfg.default with secInfo := { Cfg.default.secInfo with reservedMask := 0x100 } } = false := by
  decide +kernel

theorem test_wf_pageTypesDistinct : Cfg.pageTypesDistinct { Cfg.default with pageTypes := ⟨0, 1, 1⟩ } = false := by
  decide +kernel

theorem test_wf_pageTypesFit : Cfg.pageTypesFit { Cfg.default with pageTypes := ⟨0, 1, 256⟩ } = false := by decide +kernel

theorem test_wf_tcs :
    Cfg.tcsOk { Cfg.default with tcs := { Cfg.default.tcs with aep := ⟨4089, 8⟩ } } = false ∧
      Cfg.tcsOk { Cfg.default with tcs := { Cfg.default.tcs with dbgoptin := 64 } } = false := by decide +kernel

theorem test_wf_tcsLimits :
    Cfg.tcsLimitsOk { Cfg.default with tcs := { Cfg.default.tcs with gslimit := ⟨68, 1⟩ } } = false := by decide +kernel

theorem test_wf_tcsFieldsDisjoint :
    Cfg.tcsFieldsDisjoint { Cfg.default with tcs := { Cfg.default.tcs with aep := ⟨26, 8⟩ } } = false := by decide +kernel

/-! ## Decoding (R61, R65) -/

/-- 0FH 01H CFH, bit by bit; the byte after it is left over. -/
theorem test_decode_encls :
    decode Cfg.default.enclsBytes [0b00001111, 0b00000001, 0b11001111, 0b10010000] = .ok (.encls, [0b10010000]) := rfl

/-- 0F 01 CE and 0F 01 D7 are other instructions, 0F 01 is none. -/
theorem test_decode_others :
    decode Cfg.default.enclsBytes [0x0F, 0x01, 0xCE] = .error .notEncls ∧
      decode Cfg.default.enclsBytes [0x0F, 0x01, 0xD7] = .error .notEncls ∧
      decode Cfg.default.enclsBytes [0x0F, 0x01] = .error .truncated := ⟨rfl, rfl, rfl⟩

theorem test_encode_encls : encode Cfg.default.enclsBytes .encls = [0b00001111, 0b00000001, 0b11001111] := rfl

/-- The word of the opcode table, placed after reset, is what the next step fetches. -/
theorem test_withFetchWord : fetch (State.reset.withFetchWord 24 0x0F01CF) = .ok .encls := rfl

/-! ## A small machine after spec/95_test_vectors.md, section 2 -/

/-- PAGEINFO at 100000H. -/
def putInfo (i : PageInfo) (m : Memory) : Memory :=
  let m := m.writeNat 0x100000 8 i.linaddr.toNat
  let m := m.writeNat 0x100008 8 i.srcpge.toNat
  let m := m.writeNat 0x100010 8 i.secinfo.toNat
  m.writeNat 0x100018 8 i.secs.toNat

/-- Source page A, at 200000H (four bytes of it), and source page B, the TCS at 201000H. -/
def pages : Memory :=
  let m : Memory := [(0x200001, 1), (0x200002, 2), (0x2000FA, 0xFA), (0x200FFF, 0x4F)]
  m.writeBytes 0x201000
    [1, 0, 0, 0, 0, 0, 0, 0,  1, 0, 0, 0, 0, 0, 0, 0,  0, 0x30, 0, 0, 0, 0, 0, 0,  5, 0, 0, 0, 2, 0, 0, 0,
     0x34, 0x12, 0, 0, 0, 0, 0, 0,  0xEF, 0xBE, 0xAD, 0xDE, 0, 0, 0, 0,  0, 0, 0, 0, 0, 0, 0, 0,
     0, 0, 0, 0, 0, 0, 0, 0,  0xFF, 0x0F, 0, 0, 0xFF, 0x0F, 0, 0]

def infoA : PageInfo := ⟨0x10001000, 0x200000, 0x101000, 0x80000000⟩

def infoB : PageInfo := ⟨0x10002000, 0x201000, 0x101000, 0x80000000⟩

def secsA : Secs := ⟨0x10000000, 0x10000, true, Sha256.initial, 0x80000000, false, 0⟩

def entrySecs : EpcmEntry := { EpcmEntry.empty with valid := true }

def entryReg : EpcmEntry :=
  { EpcmEntry.empty with valid := true, pt := 2, r := true, w := true, enclaveAddress := 0x10003000, enclaveSecs := 0x80000000 }

def regsA : Regs := { Regs.reset with rax := 1, rbx := 0x100000, rcx := 0x80001000 }

/-- The machine with PAGEINFO `i` and SECINFO.FLAGS `flags` at 101000H; a second, initialized enclave has its SECS at
80004000H, and 80003000H holds a regular page of the first. -/
def start (i : PageInfo) (flags : Nat) : State :=
  { State.reset with
    regs := regsA
    rip := 0x400000
    mode := .mode64
    mem := (putInfo i pages).writeNat 0x101000 8 flags
    epcm := [(0x80000000, entrySecs), (0x80003000, entryReg), (0x80004000, entrySecs)]
    secs := [(0x80000000, secsA), (0x80004000, { secsA with identifier := 0x80004000, init := true })]
    cfg := { Cfg.default with epc := [0x80000000, 0x80001000, 0x80002000, 0x80003000, 0x80004000] }
    text := [(0x400000, 0x0F), (0x400001, 0x01), (0x400002, 0xCF)] }

/-- V1. -/
def base : State := start infoA 0x203

/-- The TCS of P2. -/
def baseTcs : State := start infoB 0x107

/-- The temporaries of an execution under the identity mapping. -/
def temps (i : PageInfo) (flags : Nat) : Temps where
  laPi := 0x100000
  laTgt := 0x80001000
  paTgt := 0x80001000
  paPi := 0x100000
  info := i
  laSrc := i.srcpge
  laSecs := i.secs
  laSi := i.secinfo
  paSecs := i.secs
  paSi := i.secinfo
  si := BitVec.ofNat 512 flags
  secs := secsA
  paSrc := i.srcpge

def tA : Temps := temps infoA 0x203

def tB : Temps := temps infoB 0x107

/-- With other operand registers. -/
def withRegs (rbx rcx : Qword) (s : State) : State := { s with regs := { s.regs with rbx, rcx } }

/-- Readable pages only as listed; everything writable. -/
def readable (ps : List Nat) (s : State) : State :=
  { s with input := { s.input with paging := ⟨.wr, 0, 2 ^ 52, 0⟩ :: ps.map fun p => ⟨.rd, p, 1, p⟩ } }

/-- With another leaf in progress and the three BUSY inputs true. -/
def busyWith (o : OtherLeaf) (s : State) : State :=
  { s with input := { s.input with others := [o], busyTarget := true, busySecs := true, busyMeasure := true } }

def holdsTarget : OtherLeaf := ⟨.other, [(0x80001000, .shared)], none, false⟩

def holdsSecs : OtherLeaf := ⟨.einit, [(0x80000000, .shared)], some 0x80000000, false⟩

/-- Another leaf on another enclave. -/
def elsewhere : OtherLeaf := ⟨.eextend, [(0x80003000, .exclusive), (0x80004000, .shared)], some 0x80004000, true⟩

/-- `Mode32` with a flat DS. -/
def flat32 (s : State) : State := { s with mode := .mode32, ds := ⟨0, 0xFFFFFFFF⟩ }

/-- With another SECS record of the enclave. -/
def withSecs (r : Secs) (s : State) : State := s.setSecs 0x80000000 r

/-! ## What an execution answers, as a Bool -/

def isNext : Host.Outcome State Fault Refusal → Bool
  | .next _ => true
  | _ => false

def isFault : Host.Outcome State Fault Refusal → Bool
  | .fault _ => true
  | _ => false

theorem exists_next {o : Host.Outcome State Fault Refusal} (h : isNext o = true) : ∃ u, o = .next u := by
  cases o with
  | next u => exact ⟨u, rfl⟩
  | fault f => cases h
  | refused r => cases h

theorem exists_fault {o : Host.Outcome State Fault Refusal} (h : isFault o = true) : ∃ f, o = .fault f := by
  cases o with
  | next u => cases h
  | fault f => exact ⟨f, rfl⟩
  | refused r => cases h

/-- A property of the next state. -/
def onNext (p : State → Bool) : Host.Outcome State Fault Refusal → Bool
  | .next u => p u
  | _ => false

/-! ## One step -/

/-- P1: RIP, copied bytes, the EPCM entry, and MRENCLAVE = M1. -/
theorem test_step_regular_page :
    onNext (fun u => u.rip == 0x400003 && u.mem.byte 0x80001002 == 2 && u.mem.byte 0x80001FFF == 0x4F &&
      u.epcmEntry 0x80001000 == ⟨true, 2, true, true, false, 0x10001000, 0x80000000, false, false, false, 0⟩ &&
      u.secsRecord? 0x80000000 == some { secsA with
        mrenclave := ⟨0x4a3e6716, 0x3ac55fff, 0xbe4335f3, 0xc674129b, 0x18b2cff6, 0x865ae247, 0x8435d8c2, 0xd2be5872⟩
        mrcount := 1 }) (step base) = true := by
  decide +kernel

/-- P2, second ENCLS, from the measurement M1: the TCS page as forced, R = W = X = 0, and MRENCLAVE = M2. -/
theorem test_step_tcs_page :
    onNext (fun u => u.mem.readBytes 0x80001000 72 ==
        [0, 0, 0, 0, 0, 0, 0, 0,  0, 0, 0, 0, 0, 0, 0, 0,  0, 0x30, 0, 0, 0, 0, 0, 0,  0, 0, 0, 0, 2, 0, 0, 0,
         0x34, 0x12, 0, 0, 0, 0, 0, 0,  0, 0, 0, 0, 0, 0, 0, 0,  0, 0, 0, 0, 0, 0, 0, 0,
         0, 0, 0, 0, 0, 0, 0, 0,  0xFF, 0x0F, 0, 0, 0xFF, 0x0F, 0, 0] &&
      u.epcmEntry 0x80001000 == ⟨true, 1, false, false, false, 0x10002000, 0x80000000, false, false, false, 0⟩ &&
      (u.secsRecord? 0x80000000).map (fun r => (r.mrenclave, r.mrcount)) == some
        (⟨0x815f801d, 0x7cc0152a, 0x2f851222, 0x28b0007e, 0x447323a3, 0x7e0d1175, 0xcb0eb1b7, 0x9374f893⟩, 2))
      (step (withSecs { secsA with
        mrenclave := ⟨0x4a3e6716, 0x3ac55fff, 0xbe4335f3, 0xc674129b, 0x18b2cff6, 0x865ae247, 0x8435d8c2, 0xd2be5872⟩
        mrcount := 1 } baseTcs)) = true := by
  decide +kernel

/-- Another layout: bit 63 of SECINFO not reserved. -/
def otherLayout (s : State) : State :=
  { s with cfg := { s.cfg with secInfo := { SecInfoLayout.default with reservedMask := ~~~(0x800000000000FF3F#512) } } }

/-- R42, R78: bit 3 of SECINFO ends the run at the default layout only. -/
theorem test_open_bits :
    isNext (step (start infoA 0x20B)) = false ∧ isNext (step (otherLayout (start infoA 0x20B))) = true := by
  decide +kernel

/-- D24: ENCLAVESECS is the physical address of the SECS page, whatever the record stores, unless the configuration says that the
record has the identifier. -/
theorem test_secsId :
    onNext (fun u => (u.epcmEntry 0x80001000).enclaveSecs == 0x80000000) (step (withSecs { secsA with identifier := 7 } base)) =
        true ∧
      onNext (fun u => (u.epcmEntry 0x80001000).enclaveSecs == 7)
        (step (withSecs { secsA with identifier := 7 } { base with cfg := { base.cfg with secsId := .stored } })) = true := by
  decide +kernel

/-! ## Witnesses: the step -/

theorem wf_base : base.cfg.wf = true := by decide +kernel

theorem witness_StepRunsEnclsAtRip :
    ∀ k (hk : k < base.cfg.enclsBytes.length), find? base.text (base.ripPlus k).toNat = some base.cfg.enclsBytes[k] := by
  decide +kernel

theorem witness_StepRunsDecodedInstruction :
    Instr.wf .encls = true ∧
      decode base.cfg.enclsBytes (fetchBytes base base.cfg.enclsBytes.length) = .ok (.encls, []) := ⟨rfl, rfl⟩

/-- The first byte missing; and the last byte another. -/
theorem witness_OtherBytesAreRefused :
    (∃ hk : 0 < State.reset.cfg.enclsBytes.length,
      find? State.reset.text (State.reset.ripPlus 0).toNat ≠ some State.reset.cfg.enclsBytes[0]) ∧
      ∃ hk : 2 < base.cfg.enclsBytes.length,
        find? (base.placeText [0x0F, 0x01, 0xD7]).text (base.ripPlus 2).toNat ≠ some base.cfg.enclsBytes[2] := by
  decide +kernel

/-- RIP wraps in both modes. -/
theorem witness_RipAdvanceWraps :
    base.mode = .mode64 ∧ { base with rip := 0xFFFFFFFFFFFFFFFE }.ripPlus 3 = 1 ∧
      (flat32 base).mode = .mode32 ∧ (flat32 { base with rip := 0xFFFFFFFE }).ripPlus 3 = 1 := by
  decide +kernel

/-- The machine with a queued input that loads RBX twice and R9 once. -/
def sQueued : State :=
  { base with upcoming := [{ StepInput.singleAgent with loads := [(.rbx, 0x100040), (.r9, 7), (.rbx, 0x100080)] }] }

theorem witness_BetweenStepsOnlyInputsChange :
    base.upcoming = [] ∧
      sQueued.upcoming = { StepInput.singleAgent with loads := [(.rbx, 0x100040), (.r9, 7), (.rbx, 0x100080)] } :: [] :=
  ⟨rfl, rfl⟩

/-- R128: the later load of RBX counts, R9 is loaded, RCX is as it was. -/
theorem test_loads :
    sQueued.betweenSteps.regs.rbx = 0x100080 ∧ sQueued.betweenSteps.regs.r9 = 7 ∧
      sQueued.betweenSteps.regs.rcx = 0x80001000 := ⟨rfl, rfl, rfl⟩

/-! ## Witnesses: address translation -/

/-- Two regions for reading, the second under the first, and one for writing. -/
def twoRegions : StepInput :=
  { StepInput.singleAgent with paging := [⟨.wr, 5, 1, 9⟩, ⟨.rd, 5, 2, 100⟩, ⟨.rd, 4, 3, 200⟩] }

/-- The first and the last page of a region, the page under both regions, a page on neither; every offset of the page. -/
theorem witness_ResolveMapsRegions :
    resolve twoRegions 0x5ABC .wr = some 0x9ABC ∧ resolve twoRegions 0x5FFF .rd = some 0x64FFF ∧
      resolve twoRegions 0x6000 .rd = some 0x65000 ∧
      (twoRegions.paging = [⟨.wr, 5, 1, 9⟩, ⟨.rd, 5, 2, 100⟩] ++ ⟨.rd, 4, 3, 200⟩ :: [] ∧
        (∀ q ∈ [(⟨.wr, 5, 1, 9⟩ : MapRegion), ⟨.rd, 5, 2, 100⟩], ¬ Covers q .rd 0x4000) ∧ (0x4000#64).toNat / 4096 = 4 + 0) ∧
      (∀ q ∈ twoRegions.paging, ¬ Covers q .rd 0x7000) ∧ (∀ q ∈ twoRegions.paging, ¬ Covers q .wr 0x6000) := by
  and_intros <;> decide +kernel

/-! ## Witnesses: admission -/

theorem witness_NonzeroCplRaisesUd : { base with cpl := 3 }.cfg.sgx1Supported = true ∧ { base with cpl := 3 }.cpl ≠ 0 := by
  decide

theorem witness_NoEffectUnlessCplZero : { base with cpl := 1 }.cpl ≠ 0 := by decide

def sNoSgx : State := { base with cfg := { base.cfg with sgx1Supported := false } }

def sLeaf2 : State := { base with regs := { regsA with rax := 2 } }

/-- No SGX1; RAX = 2 (V18); in `Mode32`, RBX and then RCX just over 32 bits. -/
theorem witness_AdmissionRefusals :
    sNoSgx.cfg.sgx1Supported = false ∧
      (sLeaf2.cfg.sgx1Supported = true ∧ sLeaf2.cpl = 0 ∧ sLeaf2.regs.rax.toNat % 2 ^ 32 ≠ 1) ∧
      (∀ s ∈ [withRegs 0x100000000 0 (flat32 base), withRegs 0 0x100000000 (flat32 base)],
        s.cfg.sgx1Supported = true ∧ s.cpl = 0 ∧ s.regs.rax.toNat % 2 ^ 32 = 1 ∧ s.mode = .mode32 ∧
          (2 ^ 32 ≤ s.regs.rbx.toNat ∨ 2 ^ 32 ≤ s.regs.rcx.toNat)) := by
  decide +kernel

/-! ## Witnesses: checks 1 to 8 -/

/-- V2: 16-aligned; V6: not canonical; and in `Mode32` the last byte just past the DS limit. -/
theorem witness_MisalignedPageinfoRaisesGp :
    (Pass0 (withRegs 0x100010 0 base) ∧ OperandFaults (withRegs 0x100010 0 base) 0x100010 32 32) ∧
      (Pass0 (withRegs 0x800000000000 0 base) ∧ OperandFaults (withRegs 0x800000000000 0 base) 0x800000000000 32 32) ∧
      (Pass0 { flat32 base with ds := ⟨0, 0x10001E⟩ } ∧ OperandFaults { flat32 base with ds := ⟨0, 0x10001E⟩ } 0x100000 32 32) :=
  ⟨⟨by decide +kernel, .inr ⟨0x100010, by decide +kernel, by decide⟩⟩, ⟨by decide +kernel, .inl (by decide +kernel)⟩,
    ⟨by decide +kernel, .inl (by decide +kernel)⟩⟩

/-- V4 and V7. -/
theorem witness_MisalignedTargetRaisesGp :
    (Pass0 (withRegs 0x100000 0x80001800 base) ∧ Pass1 (withRegs 0x100000 0x80001800 base) tA ∧
      OperandFaults (withRegs 0x100000 0x80001800 base) 0x80001800 4096 4096) ∧
      (Pass0 (withRegs 0x100000 0x800000000000 base) ∧ Pass1 (withRegs 0x100000 0x800000000000 base) tA ∧
        OperandFaults (withRegs 0x100000 0x800000000000 base) 0x800000000000 4096 4096) :=
  ⟨⟨by decide +kernel, by decide +kernel, .inr ⟨0x80001800, by decide +kernel, by decide⟩⟩,
    ⟨by decide +kernel, by decide +kernel, .inl (by decide +kernel)⟩⟩

/-- The machine and the temporaries of another target. -/
def sTgt (rcx : Qword) : State := withRegs 0x100000 rcx base

def tTgt (rcx : Qword) : Temps := { tA with laTgt := rcx, paTgt := rcx }

/-- No page translates. -/
def unmapped : State := { base with input := { base.input with paging := [] } }

/-- V9 (a page outside) and the first page past the EPC (as V10); and no translation. -/
theorem witness_TargetOutsideEpcRaisesPf :
    (Pass0 (sTgt 0x300000) ∧ Pass1 (sTgt 0x300000) (tTgt 0x300000) ∧ Pass2 (sTgt 0x300000) (tTgt 0x300000) ∧
      NotResolvedInEpc (sTgt 0x300000) (tTgt 0x300000).laTgt) ∧
      (Pass0 (sTgt 0x80005000) ∧ Pass1 (sTgt 0x80005000) (tTgt 0x80005000) ∧ Pass2 (sTgt 0x80005000) (tTgt 0x80005000) ∧
        NotResolvedInEpc (sTgt 0x80005000) (tTgt 0x80005000).laTgt) ∧
      (Pass0 unmapped ∧ Pass1 unmapped tA ∧ Pass2 unmapped tA ∧ NotResolvedInEpc unmapped tA.laTgt) :=
  ⟨⟨by decide +kernel, by decide +kernel, by decide +kernel, .inr ⟨0x300000, by decide +kernel, by decide +kernel⟩⟩,
    ⟨by decide +kernel, by decide +kernel, by decide +kernel, .inr ⟨0x80005000, by decide +kernel, by decide +kernel⟩⟩,
    by decide +kernel, by decide +kernel, by decide +kernel, .inl rfl⟩

/-- The machine and the temporaries of PAGEINFO in the EPC, at 80002000H. -/
def sInfoInEpc : State := withRegs 0x80002000 0x80001000 base

def tInfoInEpc : Temps := { tA with laPi := 0x80002000 }

/-- V16; and PAGEINFO in the EPC. -/
theorem witness_UnreadablePageinfo :
    (Through3 (readable [] base) tA ∧ resolve (readable [] base).input tA.laPi .rd = none) ∧
      (Through3 sInfoInEpc tInfoInEpc ∧ resolve sInfoInEpc.input tInfoInEpc.laPi .rd = some 0x80002000 ∧
        InEpc sInfoInEpc 0x80002000) := by
  and_intros <;> decide +kernel

/-- The hypotheses of `MisalignedPointersRaiseGp` but the last. -/
abbrev PointersReached (i : PageInfo) : Prop :=
  Through3 (start i 0x203) (temps i 0x203) ∧ Pass4 (start i 0x203) (temps i 0x203) ∧ PointersUsable (start i 0x203) (temps i 0x203)

/-- V11. -/
theorem witness_MisalignedPointersRaiseGp_srcpge :
    PointersReached ⟨0x10001000, 0x200800, 0x101000, 0x80000000⟩ ∧
      OperandFaults (start ⟨0x10001000, 0x200800, 0x101000, 0x80000000⟩ 0x203) 0x200800 4096 4096 :=
  ⟨by and_intros <;> decide +kernel, .inr ⟨0x200800, by decide +kernel, by decide⟩⟩

/-- V12. -/
theorem witness_MisalignedPointersRaiseGp_secs :
    PointersReached ⟨0x10001000, 0x200000, 0x101000, 0x80000800⟩ ∧
      OperandFaults (start ⟨0x10001000, 0x200000, 0x101000, 0x80000800⟩ 0x203) 0x80000800 4096 4096 :=
  ⟨by and_intros <;> decide +kernel, .inr ⟨0x80000800, by decide +kernel, by decide⟩⟩

/-- V13: 32-aligned. -/
theorem witness_MisalignedPointersRaiseGp_secinfo :
    PointersReached ⟨0x10001000, 0x200000, 0x101020, 0x80000000⟩ ∧
      OperandFaults (start ⟨0x10001000, 0x200000, 0x101020, 0x80000000⟩ 0x203) 0x101020 64 64 :=
  ⟨by and_intros <;> decide +kernel, .inr ⟨0x101020, by decide +kernel, by decide⟩⟩

/-- V14. -/
theorem witness_MisalignedPointersRaiseGp_linaddr :
    PointersReached ⟨0x10001800, 0x200000, 0x101000, 0x80000000⟩ ∧ (0x10001800#64).toNat % 4096 ≠ 0 :=
  ⟨by and_intros <;> decide +kernel, by decide⟩

def infoHigh : PageInfo := ⟨0x10001000, 0x100200000, 0x101000, 0x80000000⟩

/-- A source-page pointer of 33 bits in `Mode32`. -/
theorem witness_PointerUpperBitsRefused :
    Through3 (flat32 (start infoHigh 0x203)) (temps infoHigh 0x203) ∧
      Pass4 (flat32 (start infoHigh 0x203)) (temps infoHigh 0x203) ∧
      ¬ PointersUsable (flat32 (start infoHigh 0x203)) (temps infoHigh 0x203) := by
  and_intros <;> decide +kernel

def infoSecsOut : PageInfo := ⟨0x10001000, 0x200000, 0x101000, 0x300000⟩

/-- Everything readable, and of the EPC only the target page writable. -/
def secsReadOnly : State :=
  { base with input := { base.input with paging := [⟨.rd, 0, 2 ^ 52, 0⟩, ⟨.wr, 0x80001, 1, 0x80001⟩] } }

/-- V15, and no translation for a write. -/
theorem witness_SecsOutsideEpcRaisesPf :
    (Through5 (start infoSecsOut 0x203) (temps infoSecsOut 0x203) ∧
      NotResolvedInEpc (start infoSecsOut 0x203) (temps infoSecsOut 0x203).laSecs) ∧
      (Through5 secsReadOnly tA ∧ NotResolvedInEpc secsReadOnly tA.laSecs) :=
  ⟨⟨by and_intros <;> decide +kernel, .inr ⟨0x300000, by decide +kernel, by decide +kernel⟩⟩,
    by and_intros <;> decide +kernel, .inl (by decide +kernel)⟩

def infoSecinfoIn : PageInfo := ⟨0x10001000, 0x200000, 0x80002000, 0x80000000⟩

/-- SECINFO unreadable, and SECINFO in the EPC. -/
theorem witness_SecinfoChecked_unreadable :
    (Through5 (readable [0x100] base) tA ∧ Pass6 (readable [0x100] base) tA ∧
      resolve (readable [0x100] base).input tA.laSi .rd = none) ∧
      (Through5 (start infoSecinfoIn 0) (temps infoSecinfoIn 0) ∧ Pass6 (start infoSecinfoIn 0) (temps infoSecinfoIn 0) ∧
        resolve (start infoSecinfoIn 0).input (temps infoSecinfoIn 0).laSi .rd = some 0x80002000 ∧
        InEpc (start infoSecinfoIn 0) 0x80002000) := by
  and_intros <;> decide +kernel

/-- The hypotheses of `SecinfoChecked` up to check 7. -/
abbrev SecinfoReached (flags : Nat) : Prop :=
  Through5 (start infoA flags) (temps infoA flags) ∧
    Pass6 (start infoA flags) (temps infoA flags) ∧ Pass7 (start infoA flags) (temps infoA flags)

/-- A reserved bit (V29), the type PT_SECS (V26), the type after the last named (V27). -/
theorem witness_SecinfoChecked_faults :
    (SecinfoReached 0x243 ∧ ¬ SecInfoOk (start infoA 0x243) (temps infoA 0x243)) ∧
      (SecinfoReached 0x3 ∧ ¬ SecInfoOk (start infoA 0x3) (temps infoA 0x3)) ∧
      (SecinfoReached 0x303 ∧ ¬ SecInfoOk (start infoA 0x303) (temps infoA 0x303)) := by
  and_intros <;> decide +kernel

/-- V33: bit 3. -/
theorem witness_SecinfoChecked_refuses :
    SecinfoReached 0x20B ∧ SecInfoOk (start infoA 0x20B) (temps infoA 0x20B) ∧
      ¬ OpenBitsClear (start infoA 0x20B).cfg (temps infoA 0x20B).si := by
  and_intros <;> decide +kernel

/-! ## Witnesses: checks 9 to 12 -/

theorem through8_base : Through8 base tA := by and_intros <;> decide +kernel

/-- The target page held by another leaf. -/
def sHeld : State := busyWith holdsTarget base

theorem through8_held : Through8 sHeld tA := by and_intros <;> decide +kernel

/-- The same in VMX non-root operation with the EPC virtualization extensions. -/
def sHeldVmx : State := { sHeld with vmxNonRoot := true, epcVirtExt := true }

theorem through8_heldVmx : Through8 sHeldVmx tA := by and_intros <;> decide +kernel

/-- V40, V39 and V41. -/
theorem witness_BusyTargetExitsOrRaisesGp :
    (Through8 sHeldVmx tA ∧ targetBusy sHeldVmx.input tA.paTgt = true ∧
      sHeldVmx.vmxNonRoot = true ∧ sHeldVmx.epcVirtExt = true) ∧
      (Through8 sHeld tA ∧ targetBusy sHeld.input tA.paTgt = true ∧ ¬ (sHeld.vmxNonRoot = true ∧ sHeld.epcVirtExt = true)) ∧
      (Through8 { sHeld with vmxNonRoot := true } tA ∧ { sHeld with vmxNonRoot := true }.epcVirtExt ≠ true) :=
  ⟨⟨through8_heldVmx, by decide +kernel, rfl, rfl⟩, ⟨through8_held, by decide +kernel, by decide +kernel⟩,
    (by and_intros <;> decide +kernel), by decide +kernel⟩

/-- V35. -/
theorem witness_ValidTargetRaisesPf :
    Through8 (base.setEpcm 0x80001000 entryReg) tA ∧
      Pass9 (base.setEpcm 0x80001000 entryReg) tA ∧ ((base.setEpcm 0x80001000 entryReg).epcmEntry tA.paTgt).valid = true :=
  ⟨(by and_intros <;> decide +kernel), by decide +kernel, by decide +kernel⟩

/-- V43. -/
theorem witness_BusySecsRaisesGp :
    Through10 (busyWith holdsSecs base) tA ∧
      secsBusy (busyWith holdsSecs base).input tA.paSecs = true :=
  ⟨⟨(by and_intros <;> decide +kernel), by decide +kernel, by decide +kernel⟩, by decide +kernel⟩

/-- The machine with another EPCM entry of the SECS page. -/
def sSecsEntry (e : EpcmEntry) : State := base.setEpcm 0x80000000 e

/-- V36 and V37. -/
theorem witness_InvalidSecsRaisesPf :
    (Through10 (sSecsEntry .empty) tA ∧ Pass11 (sSecsEntry .empty) tA ∧
      tA.paTgt ≠ tA.paSecs ∧ ¬ SecsPageOk (sSecsEntry .empty) tA) ∧
      (Through10 (sSecsEntry entryReg) tA ∧ Pass11 (sSecsEntry entryReg) tA ∧ ¬ SecsPageOk (sSecsEntry entryReg) tA) :=
  ⟨⟨⟨(by and_intros <;> decide +kernel), by decide +kernel, by decide +kernel⟩, by decide +kernel, by decide +kernel,
    by decide +kernel⟩, ⟨(by and_intros <;> decide +kernel), by decide +kernel, by decide +kernel⟩, by decide +kernel, by decide +kernel⟩

/-- V47, and the same with the page invalid. -/
theorem witness_SamePageAsTargetAndSecsFaults :
    (Through8 (sTgt 0x80000000) (tTgt 0x80000000) ∧
      Pass9 (sTgt 0x80000000) (tTgt 0x80000000) ∧ (tTgt 0x80000000).paTgt = (tTgt 0x80000000).paSecs ∧
      ((sTgt 0x80000000).epcmEntry 0x80000000).valid = true) ∧
      (Through8 { sTgt 0x80000000 with epcm := [] } (tTgt 0x80000000) ∧
        ({ sTgt 0x80000000 with epcm := [] }.epcmEntry 0x80000000).valid = false) := by
  and_intros <;> decide +kernel

/-! ## Witnesses: checks 13 to 17 -/

theorem through12_base : Through12 base tA :=
  ⟨⟨through8_base, by decide +kernel, by decide +kernel⟩, by decide +kernel, by decide +kernel⟩

theorem through13_base : Through13 base tA := ⟨through12_base, by decide +kernel⟩

theorem through13_baseTcs : Through13 baseTcs tB := by and_intros <;> decide +kernel

def infoSrcIn : PageInfo := ⟨0x10001000, 0x80002000, 0x101000, 0x80000000⟩

/-- The source page unreadable, and the source page in the EPC. -/
theorem witness_UnreadableSourcePage :
    (Through12 (readable [0x100, 0x101] base) tA ∧
      resolve (readable [0x100, 0x101] base).input tA.laSrc .rd = none) ∧
      (Through12 (start infoSrcIn 0x203) (temps infoSrcIn 0x203) ∧
        resolve (start infoSrcIn 0x203).input (temps infoSrcIn 0x203).laSrc .rd = some 0x80002000 ∧
        InEpc (start infoSrcIn 0x203) 0x80002000) := by
  and_intros <;> decide +kernel

/-- The TCS of `baseTcs` with bytes of it overwritten, in an enclave with the record `r`. -/
def sTcs (r : Secs) (a : Nat) (bs : List Byte) : State := withSecs r (baseTcs.setMem (baseTcs.mem.writeBytes a bs))

def secs32 : Secs := { secsA with mode64bit := false }

/-- The hypotheses of the clauses of `PageTypeChecked` about a TCS. -/
abbrev TcsReached (r : Secs) (a : Nat) (bs : List Byte) : Prop :=
  (sTcs r a bs).cfg.wf = true ∧ Through13 (sTcs r a bs) { tB with secs := r } ∧ IsTcs (sTcs r a bs) { tB with secs := r }

/-- V58: the first byte of RESERVED. -/
theorem witness_PageTypeChecked_reservedFirst :
    TcsReached secsA 0x201048 [1] ∧ ¬ TcsReservedZero (sTcs secsA 0x201048 [1]) 0x201000 :=
  ⟨by and_intros <;> decide +kernel, fun h => absurd ((maskClear_copiedMem _ _ 0x80001000).mpr h) (by decide +kernel)⟩

/-- V59: the last byte of RESERVED. -/
theorem witness_PageTypeChecked_reservedLast :
    TcsReached secsA 0x201FFF [0x80] ∧ ¬ TcsReservedZero (sTcs secsA 0x201FFF [0x80]) 0x201000 :=
  ⟨by and_intros <;> decide +kernel, fun h => absurd ((maskClear_copiedMem _ _ 0x80001000).mpr h) (by decide +kernel)⟩

/-- V62: FSLIMIT, in a 32-bit enclave. -/
theorem witness_PageTypeChecked_fslimit :
    TcsReached secs32 0x201040 [0, 0x10] ∧ ¬ TcsLimitsOk (sTcs secs32 0x201040 [0, 0x10]) 0x201000 secs32 := by
  and_intros <;> decide +kernel

/-- V63: GSLIMIT, in a 32-bit enclave. -/
theorem witness_PageTypeChecked_gslimit :
    TcsReached secs32 0x201044 [0xFE] ∧ ¬ TcsLimitsOk (sTcs secs32 0x201044 [0xFE]) 0x201000 secs32 := by
  and_intros <;> decide +kernel

/-- V66: bit 1 of FLAGS beside DBGOPTIN. -/
theorem witness_PageTypeChecked_flags :
    TcsReached secsA 0x201008 [3] ∧ PageTypeOk (sTcs secsA 0x201008 [3]) tB ∧ ¬ TcsFlagsOk (sTcs secsA 0x201008 [3]) 0x201000 :=
  ⟨by and_intros <;> decide +kernel,
    ⟨fun _ => ⟨(maskClear_copiedMem _ _ 0x80001000).mp (by decide +kernel), by decide +kernel⟩,
      fun h => absurd (by decide +kernel : IsTcs (sTcs secsA 0x201008 [3]) tB) h⟩,
    by decide +kernel⟩

/-- V24. -/
theorem witness_PageTypeChecked_regular :
    (start infoA 0x202).cfg.wf = true ∧ Through13 (start infoA 0x202) (temps infoA 0x202) ∧
      ¬ IsTcs (start infoA 0x202) (temps infoA 0x202) ∧ (temps infoA 0x202).si.getLsbD (start infoA 0x202).cfg.secInfo.w = true ∧
      (temps infoA 0x202).si.getLsbD (start infoA 0x202).cfg.secInfo.r = false := by
  and_intros <;> decide +kernel

/-- The machine and the temporaries of a regular page with another SECS record and LINADDR. -/
def sLin (r : Secs) (lin : Qword) : State := withSecs r (start { infoA with linaddr := lin } 0x203)

def tLin (r : Secs) (lin : Qword) : Temps := { temps { infoA with linaddr := lin } 0x203 with secs := r }

/-- Readable and writable, PT_REG: check 14 passes under the default layout. -/
theorem pass14_regular {s : State} {t : Temps} (hs : s.cfg.secInfo = Cfg.default.secInfo)
    (hp : s.cfg.pageTypes = Cfg.default.pageTypes) (ht : t.si = 0x203) : Pass14 s t := by
  have hn : ¬ IsTcs s t := by
    rw [IsTcs, PtOf, hs, hp, ht]
    decide +kernel
  refine ⟨⟨fun h => absurd h hn, fun _ _ => ?_⟩, fun h => absurd h hn⟩
  rw [hs, ht]
  decide +kernel

def secsTop : Secs := { secsA with baseAddr := 0xFFFFFFFFFFFF0000 }

def secsEmpty : Secs := { secsA with size := 0 }

/-- The hypotheses of `EnclaveRangeChecked` on the state. -/
abbrev RangeReached (r : Secs) (lin : Qword) : Prop :=
  (sLin r lin).cfg.wf = true ∧ Through13 (sLin r lin) (tLin r lin) ∧ Pass14 (sLin r lin) (tLin r lin)

/-- V56: the sum is 2^64, at LINADDR 10001000H and at LINADDR 0. -/
theorem witness_EnclaveRangeChecked_refuses :
    RangeReached secsTop 0x10001000 ∧ RangeReached secsTop 0 ∧ 2 ^ 64 ≤ secsTop.baseAddr.toNat + secsTop.size.toNat :=
  ⟨⟨by decide +kernel, by and_intros <;> decide +kernel, pass14_regular rfl rfl rfl⟩,
    ⟨by decide +kernel, by and_intros <;> decide +kernel, pass14_regular rfl rfl rfl⟩, by decide⟩

/-- V52: the page below. -/
theorem witness_EnclaveRangeChecked_below :
    RangeReached secsA 0x0FFFF000 ∧ secsA.baseAddr.toNat + secsA.size.toNat < 2 ^ 64 ∧
      (0x0FFFF000#64).toNat < secsA.baseAddr.toNat :=
  ⟨⟨by decide +kernel, by and_intros <;> decide +kernel, pass14_regular rfl rfl rfl⟩, by decide, by decide⟩

/-- V51: the first page above; V55: an enclave of size 0. -/
theorem witness_EnclaveRangeChecked_above :
    (RangeReached secsA 0x10010000 ∧ secsA.baseAddr.toNat + secsA.size.toNat ≤ (0x10010000#64).toNat) ∧
      (RangeReached secsEmpty 0x10000000 ∧ secsEmpty.baseAddr.toNat + secsEmpty.size.toNat < 2 ^ 64 ∧
        secsEmpty.baseAddr.toNat + secsEmpty.size.toNat ≤ (0x10000000#64).toNat) :=
  ⟨⟨⟨by decide +kernel, by and_intros <;> decide +kernel, pass14_regular rfl rfl rfl⟩, by decide⟩,
    ⟨by decide +kernel, by and_intros <;> decide +kernel, pass14_regular rfl rfl rfl⟩, by decide, by decide⟩

/-- A leaf that updates the measurement of the SECS, the other two BUSY inputs false. -/
def sMeasuring : State :=
  { base with input := { base.input with others := [⟨.eextend, [], some 0x80000000, true⟩], busyMeasure := true } }

/-- V45. -/
theorem witness_BusyMeasurementRaisesGp :
    sMeasuring.cfg.wf = true ∧ Through15 sMeasuring tA ∧ measureBusy sMeasuring.input tA.paSecs = true :=
  ⟨by decide +kernel, ⟨⟨⟨⟨(by and_intros <;> decide +kernel), by decide +kernel, by decide +kernel⟩, by decide +kernel, by decide +kernel⟩,
    by decide +kernel⟩, pass14_regular rfl rfl rfl, by decide +kernel⟩, by decide +kernel⟩

def secsInit : Secs := { secsA with init := true }

theorem through12_init : Through12 (sLin secsInit 0x10001000) (tLin secsInit 0x10001000) := by
  and_intros <;> decide +kernel

/-- V46. -/
theorem witness_InitializedEnclaveRaisesGp :
    (sLin secsInit 0x10001000).cfg.wf = true ∧ Through15 (sLin secsInit 0x10001000) (tLin secsInit 0x10001000) ∧
      Pass16 (sLin secsInit 0x10001000) (tLin secsInit 0x10001000) ∧ (tLin secsInit 0x10001000).secs.init = true :=
  ⟨by decide +kernel, ⟨⟨through12_init, by decide +kernel⟩, pass14_regular rfl rfl rfl, by decide +kernel⟩,
    by decide +kernel, rfl⟩

/-- The machine with the counter at a bound of 5. -/
def sBound : State :=
  { sLin { secsA with mrcount := 5 } 0x10001000 with cfg := { base.cfg with counterMax := some 5 } }

def tBound : Temps := tLin { secsA with mrcount := 5 } 0x10001000

theorem witness_CounterAtBoundRefused :
    sBound.cfg.wf = true ∧ Through15 sBound tBound ∧ Pass16 sBound tBound ∧ Pass17 tBound ∧
      sBound.cfg.counterMax = some tBound.secs.mrcount :=
  ⟨by decide +kernel, ⟨by and_intros <;> decide +kernel, pass14_regular rfl rfl rfl, by decide +kernel⟩, by decide +kernel,
    rfl, rfl⟩

/-! ## Witnesses: state after a fault -/

def sUser : State := { base with cpl := 3 }

theorem exec_user : exec .encls sUser = .fault (.ud sUser) := by
  rw [exec_encls, eaddAdmission, show sUser.cfg.sgx1Supported = true from rfl, show (sUser.cpl == 0) = false from rfl]
  rfl

/-- CPL 3 for the exceptions; the VM exit of V40 for the other clause. -/
theorem witness_EarlyFaultsChangeNothing :
    ((∃ f, exec .encls sUser = .fault f ∧ ∀ v u, f ≠ .vmExit v u) ∧ ¬ ∃ t, Through12 sUser t) ∧
      ((∃ v u, exec .encls sHeldVmx = .fault (.vmExit v u)) ∧ ¬ ∃ t, Through12 sHeldVmx t) := by
  refine ⟨⟨⟨.ud sUser, exec_user, fun _ _ => by simp only [ne_eq, reduceCtorEq, not_false_eq_true]⟩, fun ⟨t, h⟩ => ?_⟩, ?_, ?_⟩
  · have h0 : Pass0 sUser := h.1.1.1.1.1.1
    exact absurd h0.2.1 (by decide)
  · rw [exec_encls_of_through8 (s := sHeldVmx) (t := tA) through8_heldVmx, eaddPages,
      eaddTargetAvailable_exits (by decide +kernel) (by decide +kernel)]
    exact ⟨_, _, rfl⟩
  · rintro ⟨t, h⟩
    have h9 : Pass9 sHeldVmx t := h.1.2.1
    have e := (eaddOperands_of h.1.1).symm.trans
      (eaddOperands_of through8_heldVmx)
    rw [Pass9, show t.paTgt = tA.paTgt from congrArg EaddOperands.paTgt (Except.ok.inj e)] at h9
    revert h9
    decide +kernel

/-- V46: the fault of check 17. -/
theorem witness_LateFaultsChangeOnlyTheTargetPage :
    Through12 (sLin secsInit 0x10001000) (tLin secsInit 0x10001000) ∧
      ∃ f, exec .encls (sLin secsInit 0x10001000) = .fault f :=
  ⟨through12_init, exists_fault (by decide +kernel)⟩

/-- With nothing valid, no SECS record, the source page unreadable and the other two BUSY inputs false. -/
def laterOther (s : State) : State :=
  { readable [0x100, 0x101] s with
    epcm := []
    secs := []
    input := { (readable [0x100, 0x101] s).input with busySecs := false, busyMeasure := false } }

/-- Two states that differ in all that checks 10 to 17 read, without and with the VMX conditions. -/
theorem witness_BusyTargetOutranksLaterChecks :
    (Through8 sHeld tA ∧ Through8 (laterOther sHeld) tA ∧ targetBusy sHeld.input tA.paTgt = true ∧
      targetBusy (laterOther sHeld).input tA.paTgt = true ∧ sHeld.vmxNonRoot = (laterOther sHeld).vmxNonRoot ∧
      sHeld.epcVirtExt = (laterOther sHeld).epcVirtExt) ∧
      (Through8 sHeldVmx tA ∧ Through8 (laterOther sHeldVmx) tA ∧ targetBusy sHeldVmx.input tA.paTgt = true ∧
        targetBusy (laterOther sHeldVmx).input tA.paTgt = true ∧ sHeldVmx.vmxNonRoot = (laterOther sHeldVmx).vmxNonRoot ∧
        sHeldVmx.epcVirtExt = (laterOther sHeldVmx).epcVirtExt) := by
  and_intros <;> decide +kernel

/-! ## Witnesses: completion and frame -/

theorem allPass_base : AllPass base tA :=
  ⟨⟨through13_base, pass14_regular rfl rfl rfl, by decide +kernel⟩, by decide +kernel, rfl, by decide +kernel⟩

/-- In `Mode64`, and in `Mode32` with a flat DS. -/
theorem witness_RegularPageIsAdded :
    base.cfg.wf = true ∧ (AllPass base tA ∧ ¬ IsTcs base tA) ∧ (AllPass (flat32 base) tA ∧ ¬ IsTcs (flat32 base) tA) :=
  ⟨wf_base, ⟨allPass_base, by decide +kernel⟩,
    ⟨⟨⟨by and_intros <;> decide +kernel, pass14_regular rfl rfl rfl, by decide +kernel⟩, by decide +kernel, rfl,
      by decide +kernel⟩, by decide +kernel⟩⟩

/-- RESERVED of the small machine's TCS is zero. -/
theorem tcsReserved_baseTcs : TcsReservedZero baseTcs 0x201000 :=
  (maskClear_copiedMem baseTcs 0x201000 0x80001000).mp (by decide +kernel)

theorem isTcs_baseTcs : IsTcs baseTcs tB := by decide +kernel

/-- P2's TCS; SECINFO asks for R, W and X. -/
theorem witness_TcsPageIsAdded :
    baseTcs.cfg.wf = true ∧ AllPass baseTcs tB ∧ IsTcs baseTcs tB ∧
      ∀ i, i < 512 → (0x100#512).getLsbD i =
        (tB.si.getLsbD i && decide (i ≠ baseTcs.cfg.secInfo.r ∧ i ≠ baseTcs.cfg.secInfo.w ∧ i ≠ baseTcs.cfg.secInfo.x)) := by
  exact ⟨by decide +kernel,
    ⟨⟨through13_baseTcs, ⟨⟨fun _ => ⟨tcsReserved_baseTcs, by decide +kernel⟩, fun h => absurd isTcs_baseTcs h⟩,
      by decide +kernel⟩, by decide +kernel⟩, by decide +kernel, rfl, by decide +kernel⟩, isTcs_baseTcs, by decide +kernel⟩

theorem witness_EnclaveSecsIsTheSecsPage :
    base.cfg.wf = true ∧ AllPass base tA ∧ base.cfg.secsId = .pageAddress := ⟨wf_base, allPass_base, rfl⟩

/-- A regular page and a TCS page. -/
theorem witness_EpcmEntryIsWritten :
    (base.cfg.wf = true ∧ AllPass base tA) ∧ (baseTcs.cfg.wf = true ∧ AllPass baseTcs tB) :=
  ⟨⟨wf_base, allPass_base⟩, witness_TcsPageIsAdded.1, witness_TcsPageIsAdded.2.1⟩

def sElsewhere : State := busyWith elsewhere base

/-- Another leaf on another enclave, the three BUSY inputs true. -/
theorem witness_PreconditionsSuffice :
    sElsewhere.cfg.wf = true ∧ Through8 sElsewhere tA ∧ Pass10 sElsewhere tA ∧ Pass12 sElsewhere tA ∧ Pass13 sElsewhere tA ∧
      Pass14 sElsewhere tA ∧ Pass15 tA ∧ Pass17 tA ∧ CounterFree sElsewhere tA ∧ NoConflict sElsewhere tA :=
  ⟨wf_base, (by and_intros <;> decide +kernel), by decide +kernel, by decide +kernel, by decide +kernel, pass14_regular rfl rfl rfl,
    by decide +kernel, rfl, by decide +kernel, by decide +kernel⟩

theorem exec_base : ∃ u, exec .encls base = .next u := ⟨_, exec_encls_of_allPass wf_base allPass_base⟩

theorem witness_GoesOnExactlyWhenEveryCheckPasses : base.cfg.wf = true ∧ (∃ u, exec .encls base = .next u) ∧ ∃ t, AllPass base t :=
  ⟨wf_base, exec_base, tA, allPass_base⟩

theorem witness_FrameOfEadd :
    base.cfg.wf = true ∧ (∃ u, exec .encls base = .next u) ∧ ∃ o, eaddOperands base = .ok o :=
  ⟨wf_base, exec_base, _, eaddOperands_of through8_base⟩

theorem witness_RegistersNeverWritten :
    (∃ u, exec .encls base = .next u) ∧ ∃ f, exec .encls sUser = .fault f := ⟨exec_base, _, exec_user⟩

theorem witness_FlagsNeitherReadNorWritten :
    (∃ u, exec .encls base = .next u) ∧ ∃ f, exec .encls sUser = .fault f := ⟨exec_base, _, exec_user⟩

/-- V17: RAX[63:32] all ones. -/
theorem witness_OnlyOperandRegistersMatter :
    let g := { regsA with rax := 0xFFFFFFFF00000001, r15 := 7 }
    g.rbx = base.regs.rbx ∧ g.rcx = base.regs.rcx ∧ g.rax.toNat % 2 ^ 32 = base.regs.rax.toNat % 2 ^ 32 := by
  decide

/-! ## Witnesses: invariants and whole-machine rules -/

theorem step_base : ∃ u, step base = .next u := by
  obtain ⟨u, hu⟩ := exec_base
  refine ⟨u.betweenSteps, ?_⟩
  rw [step, show fetch base = .ok .encls from rfl]
  simp only [hu]

theorem witness_StepKeepsListsCanonical : ListsCanonical base ∧ ∃ u, step base = .next u :=
  ⟨⟨by decide +kernel, by decide +kernel, by decide +kernel, by decide +kernel, by decide +kernel⟩, step_base⟩

/-- The valid pages of the small machine. -/
theorem valid_base {pa : Qword} (h : (base.epcmEntry pa).valid = true) :
    pa = 0x80000000 ∨ pa = 0x80003000 ∨ pa = 0x80004000 := by
  have hm : (find? base.epcm pa.toNat).isSome = true := by
    rw [State.epcmEntry] at h
    cases hf : find? base.epcm pa.toNat with
    | none => rw [hf] at h; cases h
    | some e => rfl
  obtain ⟨e, he⟩ := Option.isSome_iff_exists.mp hm
  have := List.mem_map_of_mem (f := Prod.fst) (mem_of_find? he)
  simp only [base, start, List.map_cons, List.map_nil, List.mem_cons, List.not_mem_nil, or_false] at this
  rcases this with this | this | this
  · exact .inl (BitVec.eq_of_toNat_eq this)
  · exact .inr (.inl (BitVec.eq_of_toNat_eq this))
  · exact .inr (.inr (BitVec.eq_of_toNat_eq this))

theorem ptFits_base : PtFits base := by
  intro pa
  rw [State.epcmEntry]
  cases hf : find? base.epcm pa.toNat with
  | none => decide +kernel
  | some e =>
    have : ∀ c ∈ base.epcm, c.2.pt < 2 ^ base.cfg.secInfo.ptWidth := by decide +kernel
    exact this _ (mem_of_find? hf)

/-- The two SECS of the small machine. -/
theorem isSecs_base {ps : Qword} {r : Secs} (h : IsSecs base ps r) : ps = 0x80000000 ∨ ps = 0x80004000 := by
  obtain ⟨hv, hp, -⟩ := h
  rcases valid_base hv with rfl | rfl | rfl
  · exact .inl rfl
  · exact absurd hp (by decide +kernel)
  · exact .inr rfl

theorem witness_StepKeepsEpcSound : EpcSound base ∧ ∃ u, step base = .next u := by
  refine ⟨⟨wf_base, ptFits_base, fun pa h => ?_, fun pa h hp => ?_, fun ps r ps' r' _ _ h => h, fun pa h => ?_,
    fun pa h ht => ?_⟩, step_base⟩
  · rcases valid_base h with rfl | rfl | rfl <;> decide +kernel
  · rcases valid_base h with rfl | rfl | rfl <;> revert hp <;> decide +kernel
  · rcases valid_base h with rfl | rfl | rfl <;> decide +kernel
  · rcases valid_base h with rfl | rfl | rfl
    · exact absurd ht (by decide +kernel)
    · exact ⟨0x80000000, secsA, by decide +kernel, by decide +kernel, by decide +kernel, by decide +kernel⟩
    · exact absurd ht (by decide +kernel)

/-- Identifiers that the records store: two that differ meet the invariant, two that do not break it. -/
theorem test_identifiers :
    IdentifiersDistinct { base with cfg := { base.cfg with secsId := .stored } } ∧
      ¬ IdentifiersDistinct
        { base with
          cfg := { base.cfg with secsId := .stored }
          secs := [(0x80000000, secsA), (0x80004000, secsA)] } := by
  constructor
  · intro ps r ps' r' h h' e
    rcases isSecs_base (ps := ps) h with rfl | rfl <;> rcases isSecs_base (ps := ps') h' with rfl | rfl
    · rfl
    · cases h.2.2; cases h'.2.2
      exact absurd e (by decide)
    · cases h.2.2; cases h'.2.2
      exact absurd e (by decide)
    · rfl
  · intro h
    exact absurd (h 0x80000000 secsA 0x80004000 secsA (by decide +kernel) (by decide +kernel) rfl) (by decide)

theorem witness_StepKeepsFixture : ∃ u, step base = .next u := step_base

theorem witness_ValidPagesAreNeverTouched :
    base.cfg.wf = true ∧ (0x80003000#64).toNat % 4096 = 0 ∧ (base.epcmEntry 0x80003000).valid = true ∧
      ∃ u, step base = .next u :=
  ⟨wf_base, by decide, by decide +kernel, step_base⟩

/-- A byte of the source page, and the byte after the EPC. -/
theorem witness_NoByteOutsideEpcIsWritten :
    base.cfg.wf = true ∧ (∀ a ∈ [0x200001, 0x80005000], a < 2 ^ 64 ∧ ¬ InEpc base (BitVec.ofNat 64 a)) ∧
      ∃ u, step base = .next u :=
  ⟨wf_base, by decide +kernel, step_base⟩

theorem witness_InitializedEnclaveIsFrozen :
    base.cfg.wf = true ∧ (∃ r, base.secsRecord? 0x80004000 = some r ∧ r.init = true) ∧ ∃ u, step base = .next u :=
  ⟨wf_base, ⟨_, rfl, rfl⟩, step_base⟩

theorem witness_AddingTwiceRaisesPf : base.cfg.wf = true ∧ AllPass base tA ∧ ∃ u, exec .encls base = .next u :=
  ⟨wf_base, allPass_base, exec_base⟩

/-- A source page with another byte. -/
def baseOther : State := base.setMem (base.mem.writeBytes 0x200000 [9])

theorem allPass_baseOther : AllPass baseOther tA :=
  ⟨⟨by and_intros <;> decide +kernel, pass14_regular rfl rfl rfl, by decide +kernel⟩, by decide +kernel, rfl,
    by decide +kernel⟩

theorem witness_ContentIsNotMeasured :
    base.cfg.wf = true ∧ baseOther.cfg.wf = true ∧ AllPass base tA ∧ AllPass baseOther tA ∧
      base.cfg.secInfo = baseOther.cfg.secInfo ∧ base.cfg.pageTypes = baseOther.cfg.pageTypes ∧
      base.cfg.sha = baseOther.cfg.sha ∧ (∃ u, exec .encls base = .next u) ∧ ∃ u, exec .encls baseOther = .next u :=
  ⟨wf_base, wf_base, allPass_base, allPass_baseOther, rfl, rfl, rfl, exec_base,
    _, exec_encls_of_allPass wf_base allPass_baseOther⟩

/-- The first and the last byte of eight. -/
theorem witness_MemoryReadsLittleEndian : (0 : Nat) < 8 ∧ (7 : Nat) < 8 := by decide

end Sys2Proof.Tests
end

section
/-! PROOFS. The statements of spec/00_scope.md: the default SECS identifier, what a step that goes on leaves fixed, and the
measured block of the worked example. -/

namespace Sys2Proof.Proofs

open Sys2Proof.Machine Sys2Proof.Safety Sys2Proof.Machine.State

/-! ## The default SECS identifier -/

/-- R90: ENCLAVESECS of the target's entry after the effects is the identifier of the SECS. -/
theorem enclaveSecs_eaddEffects (s : State) (o : EaddOperands) (r : Secs) (paSrc : Qword) :
    ((eaddEffects s o r paSrc).epcmEntry o.paTgt).enclaveSecs = s.secsIdentifier o.paSecs r := by
  rw [epcmEntry_eaddEffects_self, addedEntry]

/-- Settles O38: the next state is the effects on the temporaries, and at the default choice of R6 the identifier they write is
the address of the SECS page. -/
theorem enclaveSecsIsTheSecsPage : Obligations.EnclaveSecsIsTheSecsPage := by
  intro s t hc hpass hdefault
  refine ⟨_, exec_encls_of_allPass hc hpass, ?_⟩
  calc ((eaddEffects s (operandsOf t) t.secs t.paSrc).epcmEntry t.paTgt).enclaveSecs
      = s.secsIdentifier t.paSecs t.secs := enclaveSecs_eaddEffects s (operandsOf t) t.secs t.paSrc
    _ = t.paSecs := secsIdentifier_of_pageAddress hdefault _ _

/-! ## What a step that goes on leaves fixed -/

/-- Settles O48: such a step is the effects of the leaf and then the next input, and field by field neither touches the
fixture; no condition on the configuration is needed. -/
theorem stepKeepsFixture : Obligations.StepKeepsFixture := by
  intro s u h
  obtain ⟨v, hv, rfl⟩ := step_next h
  obtain ⟨o, r, paSrc, -, -, -, -, rfl⟩ := exec_encls_next_stages hv
  simp [SameFixture]

/-! ## The measured block -/

section UpdateField

variable (offset : Qword) (si : BitVec 512) {k : Nat}

theorem updateField_byte_tag (hk : k < 8) :
    (updateField offset si).extractLsb' (8 * k) 8 = (0x0000000044444145#64).extractLsb' (8 * k) 8 :=
  BitVec.extractLsb'_append_eq_of_add_le (by omega)

theorem updateField_byte_offset (hk : k < 8) :
    (updateField offset si).extractLsb' (8 * (8 + k)) 8 = offset.extractLsb' (8 * k) 8 := by
  rw [updateField, BitVec.extractLsb'_append_eq_of_le (by omega), BitVec.extractLsb'_append_eq_of_add_le (by omega),
    show 8 * (8 + k) - 64 = 8 * k by omega]

/-- Only the first 48 bytes of SECINFO are measured (spec/90_conflicts.md C1). -/
theorem updateField_byte_secInfo (hk : k < 48) :
    (updateField offset si).extractLsb' (8 * (16 + k)) 8 = si.extractLsb' (8 * k) 8 := by
  rw [updateField, BitVec.extractLsb'_append_eq_of_le (by omega), BitVec.extractLsb'_append_eq_of_le (by omega),
    show 8 * (16 + k) - 64 - 64 = 8 * k by omega, BitVec.extractLsb'_extractLsb'_of_le (by omega)]

/-- R89, R37: byte by byte TMPUPDATEFIELD is the tag "EADD" in 8 bytes, the 8 bytes of the enclave offset and 48 bytes of
SECINFO. -/
theorem updateField_bytes :
    (List.range 64).map (fun k => (updateField offset si).extractLsb' (8 * k) 8) =
      (List.range 8).map (fun k => (0x0000000044444145#64).extractLsb' (8 * k) 8) ++
        (List.range 8).map (fun k => offset.extractLsb' (8 * k) 8) ++
        (List.range 48).map (fun k => si.extractLsb' (8 * k) 8) := by
  have hsplit : List.range 64 = List.range 8 ++ (List.range 8).map (8 + ·) ++ (List.range 48).map (16 + ·) := rfl
  rw [hsplit, List.map_append, List.map_append, List.map_map, List.map_map]
  refine congrArg₂ _ (congrArg₂ _ ?tag ?offset) ?secInfo
  case tag => exact List.map_congr_left fun k hk => updateField_byte_tag offset si (List.mem_range.mp hk)
  case offset => exact List.map_congr_left fun k hk => updateField_byte_offset offset si (List.mem_range.mp hk)
  case secInfo => exact List.map_congr_left fun k hk => updateField_byte_secInfo offset si (List.mem_range.mp hk)

end UpdateField

/-- Settles O57: the three fields of the block at the offset and the SECINFO of the worked example. -/
theorem measuredBlockOfTheWorkedExample : Obligations.MeasuredBlockOfTheWorkedExample := by
  rw [Obligations.MeasuredBlockOfTheWorkedExample, updateField_bytes]
  decide +kernel

end Sys2Proof.Proofs
end

section
/-! PROOFS. The statements of spec/10_state.md, first part: a step that goes on keeps the EPC's metadata sound. -/

namespace Sys2Proof.Proofs

open Sys2Proof.Machine Sys2Proof.Safety Sys2Proof.Machine.State

/-! ## What check 3 and check 8 say of the target and of SECINFO -/

/-- The target page is a page of the EPC: its address is aligned and resolves there (spec/40_encls_eadd.md R73, R74). -/
theorem paTgt_mem_epc {s : State} {t : Temps} (h : Through3 s t) : t.paTgt ∈ s.cfg.epc := by
  obtain ⟨-, -, ⟨-, haligned⟩, hresolve, hepc⟩ := h
  exact mem_epc_of_resolve hresolve haligned hepc

theorem paTgt_aligned {s : State} {t : Temps} (h : Through3 s t) : t.paTgt.toNat % 4096 = 0 := by
  obtain ⟨-, -, ⟨-, haligned⟩, hresolve, -⟩ := h
  exact (resolve_low hresolve).trans haligned

theorem ptOf_lt (c : Cfg) (si : BitVec 512) : PtOf c si < 2 ^ c.secInfo.ptWidth :=
  Nat.mod_lt _ (Nat.two_pow_pos _)

/-- EADD adds no PT_SECS page (spec/40_encls_eadd.md R78). -/
theorem ptOf_ne_secs {s : State} {t : Temps} (hc : s.cfg.wf = true) (h : Pass8 s t) :
    PtOf s.cfg t.si ≠ s.cfg.pageTypes.secs := by
  obtain ⟨hsecsTcs, hsecsReg, -⟩ := pageTypes_of_wf hc
  obtain ⟨⟨-, hreg | htcs⟩, -⟩ := h
  · exact hreg ▸ hsecsReg.symm
  · exact htcs ▸ hsecsTcs.symm

/-! ## SECINFO after the forcing of R88 -/

section Forced

variable {c : Cfg} {si : BitVec 512}

theorem ptLo_le_ptHi_of_wf (hc : c.wf = true) : c.secInfo.ptLo ≤ c.secInfo.ptHi := by
  obtain ⟨-, -, -, -, hfields, -⟩ := Cfg.wf_parts hc
  simp only [Cfg.secInfoFieldsOk, Bool.and_eq_true, decide_eq_true_eq] at hfields
  tauto

/-- Clearing R, W and X leaves PT alone: the fields do not overlap. -/
theorem secInfoPt_clearRwx (hc : c.wf = true) : secInfoPt c.secInfo (clearRwx c.secInfo si) = secInfoPt c.secInfo si := by
  obtain ⟨-, hr, hw, hx⟩ := rwx_of_wf hc
  have hpt := ptLo_le_ptHi_of_wf hc
  rw [secInfoPt, secInfoPt]
  refine congrArg BitVec.toNat (BitVec.eq_of_getLsbD_eq fun i hi => ?_)
  rw [SecInfoLayout.ptWidth] at hi
  rw [BitVec.getLsbD_extractLsb', BitVec.getLsbD_extractLsb']
  by_cases hlt : c.secInfo.ptLo + i < 512
  · have hne : c.secInfo.ptLo + i ≠ c.secInfo.r ∧ c.secInfo.ptLo + i ≠ c.secInfo.w ∧ c.secInfo.ptLo + i ≠ c.secInfo.x := by
      omega
    simp [getLsbD_clearRwx _ _ _ hlt, hne]
  · simp [BitVec.getLsbD_of_ge _ _ (Nat.not_lt.mp hlt)]

theorem secInfoPt_forcedSecInfo (hc : c.wf = true) : secInfoPt c.secInfo (forcedSecInfo c si) = PtOf c si := by
  rw [forcedSecInfo]
  split
  · rw [secInfoPt_clearRwx hc, secInfoPt_eq]
  · exact secInfoPt_eq c si

/-- For a TCS page R, W and X are forced to zero. -/
theorem rwx_forcedSecInfo_of_tcs (hc : c.wf = true) (ht : PtOf c si = c.pageTypes.tcs) :
    (forcedSecInfo c si).getLsbD c.secInfo.r = false ∧ (forcedSecInfo c si).getLsbD c.secInfo.w = false ∧
      (forcedSecInfo c si).getLsbD c.secInfo.x = false := by
  obtain ⟨⟨hr, hw, hx⟩, -⟩ := rwx_of_wf hc
  rw [forcedSecInfo, secInfoPt_eq, if_pos ht, getLsbD_clearRwx _ _ _ hr, getLsbD_clearRwx _ _ _ hw, getLsbD_clearRwx _ _ _ hx]
  simp

theorem forcedSecInfo_of_not_tcs (ht : PtOf c si ≠ c.pageTypes.tcs) : forcedSecInfo c si = si := by
  rw [forcedSecInfo, secInfoPt_eq, if_neg ht]

end Forced

/-! ## SECS records that differ in the measurement only -/

/-- The two records differ in MRENCLAVE and the update counter at most. -/
def SameButMeasurement (r r' : Secs) : Prop :=
  r = { r' with mrenclave := r.mrenclave, mrcount := r.mrcount }

theorem SameButMeasurement.refl (r : Secs) : SameButMeasurement r r := rfl

theorem sameButMeasurement_measuredSecs (c : Cfg) (r : Secs) (linaddr : Qword) (si : BitVec 512) :
    SameButMeasurement r (measuredSecs c r linaddr si) := rfl

theorem SameButMeasurement.range {r r' : Secs} (h : SameButMeasurement r r') : r'.baseAddr = r.baseAddr ∧ r'.size = r.size :=
  ⟨(congrArg Secs.baseAddr h).symm, (congrArg Secs.size h).symm⟩

theorem SameButMeasurement.secsIdentifier {r r' : Secs} (h : SameButMeasurement r r') (s : State) (ps : Qword) :
    s.secsIdentifier ps r' = s.secsIdentifier ps r := by
  have hid : r'.identifier = r.identifier := (congrArg Secs.identifier h).symm
  rw [State.secsIdentifier, State.secsIdentifier, hid]

/-! ## The metadata after the effects -/

section Effects

/-- The state after the effects on the temporaries `t`. -/
def effectsOn (s : State) (t : Temps) : State :=
  eaddEffects s (operandsOf t) t.secs t.paSrc

variable {s : State} {t : Temps}

theorem cfg_effectsOn : (effectsOn s t).cfg = s.cfg := rfl

theorem epcmEntry_effectsOn_target :
    (effectsOn s t).epcmEntry t.paTgt = addedEntry s.cfg.secInfo (s.epcmEntry t.paTgt) (forcedSecInfo s.cfg t.si)
      t.info.linaddr (s.secsIdentifier t.paSecs t.secs) :=
  epcmEntry_eaddEffects_self s (operandsOf t) t.secs t.paSrc

theorem epcmEntry_effectsOn_of_ne {p : Qword} (h : p ≠ t.paTgt) : (effectsOn s t).epcmEntry p = s.epcmEntry p :=
  epcmEntry_eaddEffects_of_ne s (operandsOf t) t.secs t.paSrc h

theorem pt_effectsOn_target (hc : s.cfg.wf = true) : ((effectsOn s t).epcmEntry t.paTgt).pt = PtOf s.cfg t.si := by
  rw [epcmEntry_effectsOn_target, addedEntry, secInfoPt_forcedSecInfo hc]

theorem ne_target_of_valid {p : Qword} (h10 : Pass10 s t) (h : (s.epcmEntry p).valid = true) : p ≠ t.paTgt := by
  rintro rfl
  exact Bool.false_ne_true (h10.symm.trans h)

/-- Every record there was is there after the effects, with at most another measurement. -/
theorem secsRecord?_effectsOn {p : Qword} {r : Secs} (h12 : Pass12 s t) (hr : s.secsRecord? p = some r) :
    ∃ r', (effectsOn s t).secsRecord? p = some r' ∧ SameButMeasurement r r' := by
  by_cases hp : p = t.paSecs
  · subst hp
    obtain rfl : t.secs = r := Option.some.inj (h12.2.symm.trans hr)
    exact ⟨_, secsRecord?_eaddEffects_self s (operandsOf t) t.secs t.paSrc, sameButMeasurement_measuredSecs ..⟩
  · exact ⟨r, (secsRecord?_eaddEffects_of_ne s (operandsOf t) t.secs t.paSrc hp).trans hr, .refl r⟩

/-- A SECS stays one: its page, being valid, is not the target (R80). -/
theorem isSecs_effectsOn {ps : Qword} {r : Secs} (h10 : Pass10 s t) (h12 : Pass12 s t) (h : IsSecs s ps r) :
    ∃ r', IsSecs (effectsOn s t) ps r' ∧ SameButMeasurement r r' := by
  obtain ⟨hvalid, hpt, hr⟩ := h
  have hne : ps ≠ t.paTgt := ne_target_of_valid h10 hvalid
  obtain ⟨r', hr', hsame⟩ := secsRecord?_effectsOn h12 hr
  rw [← epcmEntry_effectsOn_of_ne hne] at hvalid hpt
  exact ⟨r', ⟨hvalid, hpt, hr'⟩, hsame⟩

/-- No SECS is new: the target becomes no PT_SECS page. -/
theorem isSecs_of_effectsOn {ps : Qword} {r' : Secs} (hc : s.cfg.wf = true) (h8 : Pass8 s t) (h12 : Pass12 s t)
    (hrec : SecsHaveRecords s) (h : IsSecs (effectsOn s t) ps r') : ∃ r, IsSecs s ps r ∧ SameButMeasurement r r' := by
  obtain ⟨hvalid, hpt, hr'⟩ := h
  have hne : ps ≠ t.paTgt := by
    rintro rfl
    exact ptOf_ne_secs hc h8 (pt_effectsOn_target hc ▸ hpt)
  rw [epcmEntry_effectsOn_of_ne hne] at hvalid hpt
  obtain ⟨r, hr⟩ := Option.isSome_iff_exists.mp (hrec ps hvalid hpt)
  obtain ⟨r'', hr'', hsame⟩ := secsRecord?_effectsOn h12 hr
  obtain rfl : r'' = r' := Option.some.inj (hr''.symm.trans hr')
  exact ⟨r, ⟨hvalid, hpt, hr⟩, hsame⟩

/-! ### Each invariant after the effects: the target's entry is new, every other is as before -/

theorem ptFits_effectsOn (hc : s.cfg.wf = true) (hi : PtFits s) : PtFits (effectsOn s t) := by
  intro pa
  rw [cfg_effectsOn]
  by_cases hpa : pa = t.paTgt
  · rw [hpa, pt_effectsOn_target hc]
    exact ptOf_lt s.cfg t.si
  · rw [epcmEntry_effectsOn_of_ne hpa]
    exact hi pa

theorem validInEpc_effectsOn (htgt : t.paTgt ∈ s.cfg.epc) (hi : ValidInEpc s) : ValidInEpc (effectsOn s t) := by
  intro pa hvalid
  by_cases hpa : pa = t.paTgt
  · exact hpa ▸ htgt
  · rw [epcmEntry_effectsOn_of_ne hpa] at hvalid
    exact hi pa hvalid

theorem secsHaveRecords_effectsOn (hc : s.cfg.wf = true) (h8 : Pass8 s t) (h12 : Pass12 s t) (hi : SecsHaveRecords s) :
    SecsHaveRecords (effectsOn s t) := by
  intro pa hvalid hpt
  by_cases hpa : pa = t.paTgt
  · rw [hpa, pt_effectsOn_target hc] at hpt
    exact absurd hpt (ptOf_ne_secs hc h8)
  · rw [epcmEntry_effectsOn_of_ne hpa] at hvalid hpt
    obtain ⟨r, hr⟩ := Option.isSome_iff_exists.mp (hi pa hvalid hpt)
    obtain ⟨r', hr', -⟩ := secsRecord?_effectsOn h12 hr
    exact Option.isSome_of_mem hr'

theorem identifiersDistinct_effectsOn (hc : s.cfg.wf = true) (h8 : Pass8 s t) (h12 : Pass12 s t)
    (hrec : SecsHaveRecords s) (hi : IdentifiersDistinct s) : IdentifiersDistinct (effectsOn s t) := by
  intro ps r ps' r' h h' hid
  obtain ⟨r₀, h₀, hsame⟩ := isSecs_of_effectsOn hc h8 h12 hrec h
  obtain ⟨r₀', h₀', hsame'⟩ := isSecs_of_effectsOn hc h8 h12 hrec h'
  refine hi ps r₀ ps' r₀' h₀ h₀' ?_
  rw [← hsame.secsIdentifier, ← hsame'.secsIdentifier]
  exact hid

theorem soundAttributes_effectsOn (hc : s.cfg.wf = true) (h14 : PageTypeOk s t) (hi : AttributesSound s) :
    AttributesSound (effectsOn s t) := by
  intro pa hvalid
  rw [cfg_effectsOn]
  by_cases hpa : pa = t.paTgt
  · subst hpa
    rw [pt_effectsOn_target hc, epcmEntry_effectsOn_target]
    refine ⟨rwx_forcedSecInfo_of_tcs hc, fun hreg hw => ?_⟩
    have hnot : ¬ IsTcs s t := fun htcs => (pageTypes_of_wf hc).2.2 (htcs.symm.trans hreg)
    simp only [addedEntry, forcedSecInfo_of_not_tcs hnot] at hw ⊢
    exact h14.2 hnot hw
  · rw [epcmEntry_effectsOn_of_ne hpa] at hvalid ⊢
    exact hi pa hvalid

/-- The target belongs to the SECS of the execution, in whose range check 15 found it; every other page to the SECS it had. -/
theorem pagesOwned_effectsOn (h10 : Pass10 s t) (h12 : Pass12 s t) (h15 : Pass15 t) (hi : PagesOwned s) :
    PagesOwned (effectsOn s t) := by
  intro pa hvalid hpt
  by_cases hpa : pa = t.paTgt
  · subst hpa
    have hsecs : IsSecs s t.paSecs t.secs := ⟨h12.1.1, h12.1.2, h12.2⟩
    obtain ⟨r', hsecs', hsame⟩ := isSecs_effectsOn h10 h12 hsecs
    obtain ⟨-, hlow, hhigh⟩ := h15
    refine ⟨t.paSecs, r', hsecs', ?_⟩
    rw [epcmEntry_effectsOn_target, hsame.range.1, hsame.range.2]
    exact ⟨hsame.secsIdentifier s t.paSecs, hlow, hhigh⟩
  · rw [epcmEntry_effectsOn_of_ne hpa] at hvalid hpt ⊢
    obtain ⟨ps, r, hsecs, hid, hlow, hhigh⟩ := hi pa hvalid hpt
    obtain ⟨r', hsecs', hsame⟩ := isSecs_effectsOn h10 h12 hsecs
    refine ⟨ps, r', hsecs', (hsame.secsIdentifier s ps).trans hid, ?_⟩
    rw [hsame.range.1, hsame.range.2]
    exact ⟨hlow, hhigh⟩

/-- The effects of an execution with every check passed keep the EPC's metadata sound. -/
theorem epcSound_effectsOn (h : AllPass s t) (hi : EpcSound s) : EpcSound (effectsOn s t) := by
  obtain ⟨⟨⟨⟨⟨⟨⟨⟨h3, -⟩, -⟩, h8⟩, -, h10⟩, -, h12⟩, -⟩, h14, h15⟩, -⟩ := h
  obtain ⟨hc, hfits, hepc, hrec, hids, hattr, howned⟩ := hi
  exact ⟨hc, ptFits_effectsOn hc hfits, validInEpc_effectsOn (paTgt_mem_epc h3) hepc,
    secsHaveRecords_effectsOn hc h8 h12 hrec, identifiersDistinct_effectsOn hc h8 h12 hrec hids,
    soundAttributes_effectsOn hc h14.1 hattr, pagesOwned_effectsOn h10 h12 h15 howned⟩

end Effects

/-- The next input coming into force touches no metadata of the EPC. -/
theorem epcSound_betweenSteps (s : State) : EpcSound s.betweenSteps ↔ EpcSound s := by
  simp [EpcSound, PtFits, ValidInEpc, SecsHaveRecords, IdentifiersDistinct, AttributesSound, PagesOwned, IsSecs]

/-- Settles O46: a step that goes on is the effects of an execution with every check passed, which keep each invariant, and
then the next input. -/
theorem stepKeepsEpcSound : Obligations.StepKeepsEpcSound := by
  intro s u hi h
  obtain ⟨v, hv, rfl⟩ := step_next h
  obtain ⟨t, hpass, rfl⟩ := exec_encls_next hi.1 hv
  exact (epcSound_betweenSteps _).mpr (epcSound_effectsOn hpass hi)

end Sys2Proof.Proofs
end

section
/-! PROOFS. The statements of spec/10_state.md, second part: the counter's bound, the frame of the leaf, RIP and reset. -/

namespace Sys2Proof.Proofs

open Sys2Proof.Machine Sys2Proof.Safety Sys2Proof.Machine.State

/-! ## The update counter at its bound -/

/-- The stage with checks 13 to 17 passed: only the counter's bound is left. -/
theorem eaddContents_through17 {s : State} {t : Temps} (hc : s.cfg.wf = true) (h15 : Through15 s t) (h16 : Pass16 s t)
    (h17 : Pass17 t) :
    eaddContents s (operandsOf t) t.secs = (do
      Check.allow (counterOk s.cfg t.secs.mrcount) .counterOverflow
      return t.paSrc) := by
  obtain ⟨⟨-, h13⟩, h14, hrange⟩ := h15
  rw [Pass16] at h16
  rw [Pass17] at h17
  rw [eaddContents_through13 h13, eaddTypeCheck_of hc h14, eaddRangeCheck_of hrange, h16, h17]
  rfl

/-- Settles O31: with checks 0 to 17 passed the counter's test is what is left of the execution, and at the bound it refuses. -/
theorem counterAtBoundRefused : Obligations.CounterAtBoundRefused := by
  intro s t hc h15 h16 h17 hbound
  have hfull : counterOk s.cfg t.secs.mrcount = false := by
    rw [← Bool.not_eq_true, counterOk_iff]
    exact not_not_intro hbound
  rw [exec_encls_of_through12 h15.1.1, eaddContents_through17 hc h15 h16 h17, hfull]
  rfl

/-! ## The frame -/

/-- Settles O41: the operands are those of the temporaries with which every check passed, and the effects on them write the
target page, its entry and the measurement of the SECS. -/
theorem frameOfEadd : Obligations.FrameOfEadd := by
  intro s u hc h
  obtain ⟨t, hpass, rfl⟩ := exec_encls_next hc h
  refine ⟨rfl, rfl, rfl, rfl, rfl, rfl, rfl, rfl, rfl, rfl, rfl, rfl, rfl, fun o ho => ?_⟩
  obtain ⟨⟨⟨⟨⟨h8, -, -⟩, -, -, hrec⟩, -⟩, -⟩, -⟩ := hpass
  obtain rfl : operandsOf t = o := Except.ok.inj ((eaddOperands_of h8).symm.trans ho)
  refine ⟨fun a ha => byte_eaddMem_of_outside hc _ _ ha, fun p hp => epcmEntry_eaddEffects_of_ne _ _ _ _ hp,
    fun p hp => secsRecord?_eaddEffects_of_ne _ _ _ _ hp, ?_⟩
  exact ⟨t.secs, _, hrec, secsRecord?_eaddEffects_self .., (sameButMeasurement_measuredSecs ..).symm⟩

/-- What the state of a terminal outcome can differ in: memory, the VMCS and the count of free values (spec R94, R103). -/
theorem faultState_of_exec {s : State} {f : Fault} (h : exec .encls s = .fault f) :
    ∃ m v n, faultState f = { s with mem := m, vmcs := v, draws := n } := by
  have hraise : ∀ (e : Exception) (u : State), faultState (raise e u) = u ∨ faultState (raise e u) = u.drawn := by
    intro e u
    cases e with
    | generalProtection => exact .inl rfl
    | pageFault lin => exact .inr rfl
    | invalidOpcode => exact .inl rfl
  rcases exec_encls_fault h with ⟨t, -, rfl⟩ | ⟨e, u, hu, rfl, -⟩ | ⟨t, e, -, rfl⟩
  · exact ⟨s.mem, conflictExit t.laTgt t.paTgt, s.draws, rfl⟩
  · rcases hu with rfl | rfl <;> rcases hraise e _ with hst | hst <;> exact ⟨_, _, _, hst⟩
  · rcases hraise e (s.spoilPage t.paTgt) with hst | hst <;> exact ⟨_, _, _, hst⟩

/-- Settles O42: neither the effects nor the state of a terminal outcome touch a register. -/
theorem registersNeverWritten : Obligations.RegistersNeverWritten := by
  refine fun s => ⟨fun u h => ?next, fun f h => ?fault⟩
  case next =>
    obtain ⟨o, r, paSrc, -, -, -, -, rfl⟩ := exec_encls_next_stages h
    exact eaddEffects_regs s o r paSrc
  case fault =>
    obtain ⟨m, v, n, hst⟩ := faultState_of_exec h
    rw [hst]

/-- The page of a byte inside an EPC page is that page. -/
theorem inEpc_of_mem_page {s : State} {pa : Qword} {a : Nat} (hpa : pa ∈ s.cfg.epc) (haligned : pa.toNat % 4096 = 0)
    (hlt : a < 2 ^ 64) (hlow : pa.toNat ≤ a) (hhigh : a < pa.toNat + 4096) : InEpc s (BitVec.ofNat 64 a) := by
  have hpage : a / 4096 * 4096 = pa.toNat := by omega
  rw [InEpc, BitVec.toNat_ofNat, Nat.mod_eq_of_lt hlt, hpage, BitVec.ofNat_toNat, BitVec.setWidth_eq]
  exact hpa

/-- Settles O50: a step that goes on writes the target page only, which is a page of the EPC. -/
theorem noByteOutsideEpcIsWritten : Obligations.NoByteOutsideEpcIsWritten := by
  intro s u a hc hlt hout h
  obtain ⟨v, hv, rfl⟩ := step_next h
  obtain ⟨t, hpass, rfl⟩ := exec_encls_next hc hv
  obtain ⟨⟨⟨⟨⟨⟨⟨⟨h3, -⟩, -⟩, -⟩, -⟩, -⟩, -⟩, -⟩, -⟩ := hpass
  rw [betweenSteps_mem, eaddEffects_mem]
  refine byte_eaddMem_of_outside hc (operandsOf t) t.paSrc ?_
  by_contra hin
  rw [not_or, Nat.not_lt, Nat.not_le] at hin
  exact hout (inEpc_of_mem_page (paTgt_mem_epc h3) (paTgt_aligned h3) hlt hin.1 hin.2)

/-! ## RIP and reset -/

/-- Settles O6: in Mode64 the sum is one of 64-bit words, in Mode32 one of 32-bit words. -/
theorem ripAdvanceWraps : Obligations.RipAdvanceWraps := by
  refine fun s n => ⟨fun hm => ?mode64, fun hm => ?mode32⟩
  case mode64 => rw [ripPlus, hm, BitVec.toNat_add, BitVec.toNat_ofNat, Nat.add_mod_mod]
  case mode32 =>
    have hlt : (s.rip.setWidth 32 + BitVec.ofNat 32 n).toNat < 2 ^ 64 :=
      Nat.lt_trans (BitVec.isLt _) (by decide)
    rw [ripPlus, hm, BitVec.toNat_setWidth, Nat.mod_eq_of_lt hlt, BitVec.toNat_add, BitVec.toNat_setWidth,
      BitVec.toNat_ofNat, ← Nat.add_mod]

theorem not_valid_reset {pa : Qword} : ¬ (State.reset.epcmEntry pa).valid = true := Bool.false_ne_true

/-- Settles O47: no entry is valid, so every invariant about valid pages holds of none; the others are about empty lists and
the default configuration. -/
theorem resetIsSound : Obligations.ResetIsSound := by
  refine ⟨⟨rfl, rfl, nofun, rfl, rfl⟩, ?sound, rfl, rfl, rfl, fun pa => ⟨rfl, rfl⟩⟩
  exact ⟨by decide +kernel, fun pa => Nat.two_pow_pos _, fun pa hv => absurd hv not_valid_reset,
    fun pa hv => absurd hv not_valid_reset, fun ps r ps' r' h => absurd h.1 not_valid_reset,
    fun pa hv => absurd hv not_valid_reset, fun pa hv => absurd hv not_valid_reset⟩

end Sys2Proof.Proofs
end

section
/-! PROOFS. The statements of spec/10_state.md, third part: the registers and the flags that an execution does not depend on. An
execution commutes with a change of them: stage by stage, each check answers the same, and stops the same in the changed state. -/

namespace Sys2Proof.Proofs

open Sys2Proof.Machine Sys2Proof.Safety Sys2Proof.Machine.State

/-! ## Changing the general registers and the flags -/

/-- The state with `gr` applied to the general registers and `gf` to the flags. -/
def mapRegs (gr : Regs → Regs) (gf : Qword → Qword) (s : State) : State :=
  { s with regs := gr s.regs, rflags := gf s.rflags }

/-- A check with the state it stops in changed. -/
def mapStop {α : Type} (g : State → State) : Check α → Check α
  | .ok a => .ok a
  | .error (.fault f) => .error (.fault (mapFault g f))
  | .error (.refused r) => .error (.refused r)

section Stops

variable {α β : Type} (g : State → State)

@[simp] theorem mapStop_ok (a : α) : mapStop g (.ok a) = .ok a := rfl

@[simp] theorem mapStop_refuse (r : Refusal) : mapStop g (Check.refuse r : Check α) = Check.refuse r := rfl

@[simp] theorem mapStop_allow (c : Bool) (r : Refusal) : mapStop g (Check.allow c r) = Check.allow c r := by
  cases c <;> rfl

@[simp] theorem mapStop_bind (x : Check α) (k : α → Check β) :
    mapStop g (x >>= k) = mapStop g x >>= fun a => mapStop g (k a) := by
  rcases x with (f | r) | a <;> rfl

/-- The change of an outcome is the change of the state that the execution stops in or goes on with. -/
theorem mapOutcome_outcome (x : Check State) :
    mapOutcome g (Check.outcome x) = Check.outcome (mapStop g x >>= fun v => .ok (g v)) := by
  rcases x with (f | r) | v <;> rfl

end Stops

section MapRegs

variable (gr : Regs → Regs) (gf : Qword → Qword) (s u : State)

@[simp] theorem mapStop_raise {α : Type} (e : Exception) :
    mapStop (mapRegs gr gf) (Check.raise e u : Check α) = Check.raise e (mapRegs gr gf u) := by
  cases e <;> rfl

@[simp] theorem mapStop_require (c : Bool) (e : Exception) :
    mapStop (mapRegs gr gf) (Check.require c e u) = Check.require c e (mapRegs gr gf u) := by
  cases c
  · exact mapStop_raise gr gf u e
  · rfl

/-! What the change leaves as it is, and what it commutes with. -/

@[simp] theorem mapRegs_regs : (mapRegs gr gf s).regs = gr s.regs := rfl

@[simp] theorem mapRegs_cpl : (mapRegs gr gf s).cpl = s.cpl := rfl

@[simp] theorem mapRegs_mode : (mapRegs gr gf s).mode = s.mode := rfl

@[simp] theorem mapRegs_ds : (mapRegs gr gf s).ds = s.ds := rfl

@[simp] theorem mapRegs_vmxNonRoot : (mapRegs gr gf s).vmxNonRoot = s.vmxNonRoot := rfl

@[simp] theorem mapRegs_epcVirtExt : (mapRegs gr gf s).epcVirtExt = s.epcVirtExt := rfl

@[simp] theorem mapRegs_cfg : (mapRegs gr gf s).cfg = s.cfg := rfl

@[simp] theorem mapRegs_input : (mapRegs gr gf s).input = s.input := rfl

@[simp] theorem epcmEntry_mapRegs (pa : Qword) : (mapRegs gr gf s).epcmEntry pa = s.epcmEntry pa := rfl

@[simp] theorem secsRecord?_mapRegs (pa : Qword) : (mapRegs gr gf s).secsRecord? pa = s.secsRecord? pa := rfl

@[simp] theorem readPageInfo_mapRegs (pa : Qword) : readPageInfo (mapRegs gr gf s) pa = readPageInfo s pa := rfl

@[simp] theorem readSecInfo_mapRegs (pa : Qword) : readSecInfo (mapRegs gr gf s) pa = readSecInfo s pa := rfl

@[simp] theorem ownHoldBusy_mapRegs (p q : Qword) : ownHoldBusy (mapRegs gr gf s) p q = ownHoldBusy s p q := rfl

@[simp] theorem copiedMem_mapRegs (p q : Qword) : copiedMem (mapRegs gr gf s) p q = copiedMem s p q := rfl

@[simp] theorem drawn_mapRegs : (mapRegs gr gf s).drawn = mapRegs gr gf s.drawn := rfl

@[simp] theorem spoilPage_mapRegs (pa : Qword) : (mapRegs gr gf s).spoilPage pa = mapRegs gr gf (s.spoilPage pa) := rfl

theorem eaddEffects_mapRegs (o : EaddOperands) (r : Secs) (paSrc : Qword) :
    eaddEffects (mapRegs gr gf s) o r paSrc = mapRegs gr gf (eaddEffects s o r paSrc) := rfl

/-! ## Checks 1 to 8 -/

@[simp] theorem linear_mapRegs (ea : Qword) (n : Nat) :
    linear (mapRegs gr gf s) ea n = mapStop (mapRegs gr gf) (linear s ea n) := by
  simp only [linear, mapRegs_mode]
  cases s.mode with
  | mode64 => by_cases hcan : canonical s.cfg.linWidth ea = true <;> simp [hcan]
  | mode32 => simp [apply_ite (mapStop (mapRegs gr gf))]

@[simp] theorem alignedLinear_mapRegs (ea : Qword) (n align : Nat) :
    alignedLinear (mapRegs gr gf s) ea n align = mapStop (mapRegs gr gf) (alignedLinear s ea n align) := by
  simp [alignedLinear]

@[simp] theorem resolveEpc_mapRegs (lin : Qword) :
    resolveEpc (mapRegs gr gf s) lin = mapStop (mapRegs gr gf) (resolveEpc s lin) := by
  simp only [resolveEpc, mapRegs_input]
  cases resolve s.input lin .wr with
  | none => simp
  | some pa => by_cases hepc : inEpc s.cfg pa = true <;> simp [hepc]

@[simp] theorem resolveOutside_mapRegs (lin : Qword) :
    resolveOutside (mapRegs gr gf s) lin (mapRegs gr gf u) = mapStop (mapRegs gr gf) (resolveOutside s lin u) := by
  simp only [resolveOutside, mapRegs_input]
  cases resolve s.input lin .rd with
  | none => simp
  | some pa => by_cases hepc : inEpc s.cfg pa = true <;> simp [hepc]

@[simp] theorem eaddPointers_mapRegs (info : PageInfo) :
    eaddPointers (mapRegs gr gf s) info = mapStop (mapRegs gr gf) (eaddPointers s info) := by
  simp [eaddPointers]

@[simp] theorem eaddSecInfoCheck_mapRegs (si : BitVec 512) :
    eaddSecInfoCheck (mapRegs gr gf s) si = mapStop (mapRegs gr gf) (eaddSecInfoCheck s si) := by
  simp [eaddSecInfoCheck]

/-! ## Checks 9 to 12 -/

@[simp] theorem eaddTargetAvailable_mapRegs (laTgt paTgt : Qword) :
    eaddTargetAvailable (mapRegs gr gf s) laTgt paTgt = mapStop (mapRegs gr gf) (eaddTargetAvailable s laTgt paTgt) := by
  have hexit : ∀ v, (.error (.fault (vmExit v (mapRegs gr gf s))) : Check Unit) =
      mapStop (mapRegs gr gf) (.error (.fault (vmExit v s))) := fun v => rfl
  simp [eaddTargetAvailable, apply_ite (mapStop (mapRegs gr gf)), hexit]

@[simp] theorem eaddSecsAvailable_mapRegs (p q : Qword) :
    eaddSecsAvailable (mapRegs gr gf s) p q = mapStop (mapRegs gr gf) (eaddSecsAvailable s p q) := by
  simp [eaddSecsAvailable]

@[simp] theorem eaddSecsRecord_mapRegs (laSecs paSecs : Qword) :
    eaddSecsRecord (mapRegs gr gf s) laSecs paSecs = mapStop (mapRegs gr gf) (eaddSecsRecord s laSecs paSecs) := by
  simp only [eaddSecsRecord, secsRecord?_mapRegs]
  cases s.secsRecord? paSecs with
  | none => simp
  | some r => simp

@[simp] theorem eaddPages_mapRegs (o : EaddOperands) :
    eaddPages (mapRegs gr gf s) o = mapStop (mapRegs gr gf) (eaddPages s o) := by
  simp [eaddPages]

/-! ## Checks 13 to 17 -/

@[simp] theorem eaddTypeCheck_mapRegs (o : EaddOperands) (paSrc : Qword) (r : Secs) :
    eaddTypeCheck (mapRegs gr gf s) o paSrc r (mapRegs gr gf u) =
      mapStop (mapRegs gr gf) (eaddTypeCheck s o paSrc r u) := by
  simp [eaddTypeCheck, eaddTcsCheck, apply_ite (mapStop (mapRegs gr gf))]

@[simp] theorem eaddRangeCheck_mapRegs (linaddr : Qword) (r : Secs) :
    eaddRangeCheck linaddr r (mapRegs gr gf u) = mapStop (mapRegs gr gf) (eaddRangeCheck linaddr r u) := by
  simp [eaddRangeCheck]

@[simp] theorem eaddContents_mapRegs (o : EaddOperands) (r : Secs) :
    eaddContents (mapRegs gr gf s) o r = mapStop (mapRegs gr gf) (eaddContents s o r) := by
  simp [eaddContents]

/-! ## The execution -/

/-- The change keeps what the leaf reads of the registers: EAX, RBX and RCX (spec R11). -/
def KeepsOperandRegs (gr : Regs → Regs) (g : Regs) : Prop :=
  (gr g).rbx = g.rbx ∧ (gr g).rcx = g.rcx ∧ (gr g).rax.toNat % 2 ^ 32 = g.rax.toNat % 2 ^ 32

variable {gr s}

theorem eax_mapRegs (h : KeepsOperandRegs gr s.regs) : (mapRegs gr gf s).eax = s.eax := by
  apply BitVec.eq_of_toNat_eq
  rw [State.eax, State.eax, BitVec.toNat_setWidth, BitVec.toNat_setWidth]
  exact h.2.2

theorem eaddAdmission_mapRegs (h : KeepsOperandRegs gr s.regs) :
    eaddAdmission (mapRegs gr gf s) = mapStop (mapRegs gr gf) (eaddAdmission s) := by
  simp [eaddAdmission, eax_mapRegs gf h, h.1, h.2.1]

theorem eaddOperands_mapRegs (h : KeepsOperandRegs gr s.regs) :
    eaddOperands (mapRegs gr gf s) = mapStop (mapRegs gr gf) (eaddOperands s) := by
  simp [eaddOperands, h.1, h.2.1]

/-- EXECUTION COMMUTES WITH A CHANGE of the flags and of all of the general registers but EAX, RBX and RCX. -/
theorem exec_mapRegs (h : KeepsOperandRegs gr s.regs) :
    exec .encls (mapRegs gr gf s) = mapOutcome (mapRegs gr gf) (exec .encls s) := by
  rw [exec_encls, exec_encls, mapOutcome_outcome (mapRegs gr gf), eaddAdmission_mapRegs gf h, eadd, eaddOperands_mapRegs gf h]
  simp [eadd, eaddEffects_mapRegs]

end MapRegs

/-- Settles O43: the change of the flags alone; that they are as before is the effects' and the fault's frame. -/
theorem flagsNeitherReadNorWritten : Obligations.FlagsNeitherReadNorWritten := by
  refine fun s v => ⟨?read, fun u h => ?next, fun f h => ?fault⟩
  case read => exact exec_mapRegs (gr := id) (fun _ => v) ⟨rfl, rfl, rfl⟩
  case next =>
    obtain ⟨o, r, paSrc, -, -, -, -, rfl⟩ := exec_encls_next_stages h
    exact eaddEffects_rflags s o r paSrc
  case fault =>
    obtain ⟨m, w, n, hst⟩ := faultState_of_exec h
    rw [hst]

/-- Settles O44: the change of the registers alone, to any that agree in RBX, RCX and EAX. -/
theorem onlyOperandRegistersMatter : Obligations.OnlyOperandRegistersMatter :=
  fun _ g hrbx hrcx hrax => exec_mapRegs (gr := fun _ => g) id ⟨hrbx, hrcx, hrax⟩

end Sys2Proof.Proofs
end

section
/-! PROOFS. The statements of spec/20_memory.md: memory and byte order, canonical addresses, translation, the refusal of check
5, what makes a resource unavailable, and target and SECS on one page. -/

namespace Sys2Proof.Proofs

open Sys2Proof.Machine Sys2Proof.Safety Sys2Proof.Machine.State

/-! ## Memory and byte order -/

theorem readNat_succ (m : Memory) (a n : Nat) : m.readNat a (n + 1) = (m.byte a).toNat + 256 * m.readNat (a + 1) n := rfl

/-- R35, R37: byte k of a value read is the byte at offset k. -/
theorem readNat_byte (m : Memory) {n k : Nat} (a : Nat) (hk : k < n) :
    m.readNat a n / 256 ^ k % 256 = (m.byte (a + k)).toNat := by
  induction n generalizing a k with
  | zero => exact absurd hk (Nat.not_lt_zero k)
  | succ n ih =>
    have hbyte : (m.byte a).toNat < 256 := (m.byte a).isLt
    rw [readNat_succ]
    cases k with
    | zero =>
      rw [Nat.pow_zero, Nat.div_one, Nat.add_mul_mod_self_left, Nat.mod_eq_of_lt hbyte, add_zero]
    | succ k =>
      have hrest : ((m.byte a).toNat + 256 * m.readNat (a + 1) n) / 256 = m.readNat (a + 1) n := by omega
      rw [Nat.pow_succ', ← Nat.div_div_eq_div_mul, hrest, ih (a + 1) (Nat.lt_of_succ_lt_succ hk), Nat.add_right_comm,
        Nat.add_assoc a]

/-- Settles O54, by induction on the bytes read. -/
theorem memoryReadsLittleEndian : Obligations.MemoryReadsLittleEndian :=
  fun m a n _ hk => ⟨readNat_byte m a hk, m.readNat_lt a n⟩

/-- R35, R37: byte k of the bytes of a value is byte k of the value. -/
theorem getD_leBytes {n k : Nat} (v : Nat) (hk : k < n) : ((leBytes n v).getD k 0).toNat = v / 256 ^ k % 256 := by
  induction n generalizing v k with
  | zero => exact absurd hk (Nat.not_lt_zero k)
  | succ n ih =>
    rw [leBytes]
    cases k with
    | zero => rw [List.getD_cons_zero, BitVec.toNat_ofNat, Nat.pow_zero, Nat.div_one]
    | succ k => rw [List.getD_cons_succ, ih _ (Nat.lt_of_succ_lt_succ hk), Nat.div_div_eq_div_mul, ← Nat.pow_succ']

/-- Settles O55: the bytes written are those of the value, and a write changes no other. -/
theorem memoryWritesLittleEndian : Obligations.MemoryWritesLittleEndian := by
  intro m a n v x
  rw [Memory.writeNat, Memory.byte_writeBytes, Memory.length_leBytes]
  split
  case isTrue h => exact getD_leBytes v (by omega)
  case isFalse => rfl

/-! ## Canonical addresses -/

/-- R32: the canonical addresses are the words whose signed value fits the width. -/
theorem canonical_iff_toInt (width : Nat) (ea : Qword) :
    canonical width ea = true ↔ -2 ^ (width - 1) ≤ ea.toInt ∧ ea.toInt < 2 ^ (width - 1) := by
  have hpos : (0 : Int) < 2 ^ (width - 1) := by positivity
  have hshift : (ea.sshiftRight (width - 1)).toInt = ea.toInt / 2 ^ (width - 1) := by
    rw [BitVec.toInt_sshiftRight, Int.shiftRight_eq_div_pow, Nat.cast_pow, Nat.cast_ofNat]
  calc canonical width ea = true
      ↔ ea.toInt / 2 ^ (width - 1) = 0 ∨ ea.toInt / 2 ^ (width - 1) = -1 := by
        rw [canonical, Bool.or_eq_true, beq_iff_eq, beq_iff_eq, ← BitVec.toInt_inj, ← BitVec.toInt_inj, hshift]
        rfl
    _ ↔ -1 ≤ ea.toInt / 2 ^ (width - 1) ∧ ea.toInt / 2 ^ (width - 1) < 1 := by omega
    _ ↔ -2 ^ (width - 1) ≤ ea.toInt ∧ ea.toInt < 2 ^ (width - 1) := by
        rw [Int.le_ediv_iff_mul_le hpos, Int.ediv_lt_iff_lt_mul hpos, neg_one_mul, one_mul]

/-- Settles O56: at width 48 the signed value is at least -2^47 and below 2^47. -/
theorem canonicalAddressesAreTheTwoHalves : Obligations.CanonicalAddressesAreTheTwoHalves := by
  intro ea
  have hlt := ea.isLt
  rw [canonical_iff_toInt, BitVec.toInt_eq_toNat_cond]
  split <;> omega

/-! ## Translation -/

theorem covers_iff (r : MapRegion) (acc : Access) (lin : Qword) :
    r.covers acc (lin.toNat / 4096) = true ↔ Covers r acc lin := by
  simp [MapRegion.covers, and_assoc]

/-- R34: without a region that covers the access there is no translation. -/
theorem resolve_eq_none {i : StepInput} {lin : Qword} {acc : Access} (h : ∀ q ∈ i.paging, ¬ Covers q acc lin) :
    resolve i lin acc = none := by
  have hfind : i.paging.find? (fun r => r.covers acc (lin.toNat / 4096)) = none :=
    List.find?_eq_none.mpr fun q hq hcov => h q hq ((covers_iff q acc lin).mp hcov)
  rw [resolve, hfind]

/-- R34: the first region that covers the access decides. -/
theorem resolve_of_first {i : StepInput} {lin : Qword} {acc : Access} {before after : List MapRegion} {r : MapRegion}
    (hpaging : i.paging = before ++ r :: after) (hbefore : ∀ q ∈ before, ¬ Covers q acc lin) (hcov : Covers r acc lin) :
    resolve i lin acc =
      some (BitVec.ofNat 64 ((r.frame + (lin.toNat / 4096 - r.page)) % 2 ^ 52 * 4096 + lin.toNat % 4096)) := by
  have hfind : i.paging.find? (fun r => r.covers acc (lin.toNat / 4096)) = some r :=
    List.find?_eq_some_iff_append.mpr ⟨(covers_iff r acc lin).mpr hcov, before, after, hpaging, fun q hq => by
      rw [Bool.not_eq_true', ← Bool.not_eq_true, covers_iff]
      exact hbefore q hq⟩
  rw [resolve, hfind]

/-- Settles O8: the physical address is the region's page and the low 12 bits, which make no carry. -/
theorem resolveMapsRegions : Obligations.ResolveMapsRegions := by
  refine fun i lin acc => ⟨fun pa h => resolve_low h, ?first, resolve_eq_none⟩
  case first =>
    intro before r after k hpaging hbefore hacc hk hpage
    refine ⟨_, resolve_of_first hpaging hbefore ⟨hacc, by omega, by omega⟩, ?_⟩
    rw [BitVec.toNat_ofNat, hpage, Nat.add_sub_cancel_left]
    omega

/-! ## Unusable pointers -/

/-- Settles O17: with checks 0 to 4 passed the test of the pointers' upper halves comes next. -/
theorem pointerUpperBitsRefused : Obligations.PointerUpperBitsRefused := by
  rintro s t ⟨h0, h1, h2, h3⟩ h4 hunusable
  rw [exec_encls_of_admitted h0, eadd, eaddOperands_through3 h1 h2 h3, resolveOutside_of h4.1 h4.2.1, Check.ok_bind,
    readPageInfo_of h4]
  simp only [eaddPointers_refuses hunusable, Check.refuse_bind, Check.outcome_refuse]

/-! ## What makes a resource unavailable -/

/-- Table 40-8: the target is held Exclusive, which conflicts with Shared and Exclusive. -/
theorem conflicts_target_iff (k : AccessKind) : baseAccessTarget.conflicts k = true ↔ k = .shared ∨ k = .exclusive := by
  cases k <;> decide

/-- Table 40-8: the SECS is held Shared, which conflicts with Exclusive only. -/
theorem conflicts_secs_iff (k : AccessKind) : baseAccessSecs.conflicts k = true ↔ k = .exclusive := by
  cases k <;> decide

/-- Table 40-9: the leaves with an exclusive access to the SECS are those that update its measurement. -/
theorem additionalAccessSecs_exclusive_iff (l : LeafName) :
    additionalAccessSecs l = .exclusive ↔ l = .eadd ∨ l = .eextend ∨ l = .einit := by
  cases l <;> decide

theorem updatesMeasurement_iff (l : LeafName) :
    l.updatesMeasurement = true ↔ l = .eadd ∨ l = .eextend ∨ l = .einit := by
  cases l <;> decide

theorem holdsAgainst_iff (o : OtherLeaf) (pa : Qword) (k : AccessKind) :
    o.holdsAgainst pa k = true ↔ ∃ h ∈ o.holds, h.1 = pa ∧ k.conflicts h.2 = true := by
  simp only [OtherLeaf.holdsAgainst, List.any_eq_true, Bool.and_eq_true, beq_iff_eq]

/-- Table 40-9 adds nothing for the target: every entry is Concurrent. -/
theorem blocksTarget_iff (o : OtherLeaf) (pa : Qword) :
    o.blocksTarget pa = true ↔ ∃ h ∈ o.holds, h.1 = pa ∧ (h.2 = .shared ∨ h.2 = .exclusive) := by
  have hadditional : (additionalAccessTarget o.leaf == .exclusive) = false := rfl
  simp only [OtherLeaf.blocksTarget, hadditional, Bool.false_and, Bool.or_false, holdsAgainst_iff, conflicts_target_iff]

theorem blocksSecs_iff (o : OtherLeaf) (pa : Qword) :
    o.blocksSecs pa = true ↔ (∃ h ∈ o.holds, h.1 = pa ∧ h.2 = .exclusive) ∨
      ((o.leaf = .eadd ∨ o.leaf = .eextend ∨ o.leaf = .einit) ∧ o.secs = some pa) := by
  simp only [OtherLeaf.blocksSecs, Bool.or_eq_true, holdsAgainst_iff, conflicts_secs_iff, Bool.and_eq_true, beq_iff_eq,
    additionalAccessSecs_exclusive_iff]

theorem blocksMeasure_iff (o : OtherLeaf) (pa : Qword) :
    o.blocksMeasure pa = true ↔ o.updatingMeasure = true ∧ (o.leaf = .eadd ∨ o.leaf = .eextend ∨ o.leaf = .einit) ∧
      o.secs = some pa := by
  simp only [OtherLeaf.blocksMeasure, Bool.and_eq_true, updatesMeasurement_iff, beq_iff_eq, and_assoc]

/-- Settles O25: each condition is its BUSY input and some other leaf that the tables let block the resource. -/
theorem busyOnlyAsTheTablesAllow : Obligations.BusyOnlyAsTheTablesAllow := by
  refine fun i pa => ⟨?target, ?secs, ?measure⟩
  case target => simp only [targetBusy, Bool.and_eq_true, List.any_eq_true, blocksTarget_iff]
  case secs => simp only [secsBusy, Bool.and_eq_true, List.any_eq_true, blocksSecs_iff]
  case measure => simp only [measureBusy, Bool.and_eq_true, List.any_eq_true, blocksMeasure_iff]

/-! ## Target and SECS on one page -/

/-- R80: the stage at a valid target page. -/
theorem eaddPages_validTarget {s : State} {t : Temps} (h9 : Pass9 s t) (hv : (s.epcmEntry t.paTgt).valid = true) :
    eaddPages s (operandsOf t) = Check.raise (.pageFault t.laTgt) s := by
  simp only [eaddPages, operandsOf, eaddTargetAvailable_of h9, hv, Check.ok_bind, Bool.not_true, Check.require_false,
    Check.raise_bind]

/-- An exception of checks 9 to 12 is what the execution ends in. -/
theorem exec_encls_of_eaddPages_raise {s u : State} {t : Temps} {e : Exception} (h8 : Through8 s t)
    (h : eaddPages s (operandsOf t) = Check.raise e u) : exec .encls s = .fault (raise e u) := by
  rw [exec_encls_of_through8 h8, h, Check.raise_bind, Check.outcome_raise]

/-- R59: the SECS page that is the invalid target page fails check 11, whoever holds it, or check 12. -/
theorem eaddPages_samePage {s : State} {t : Temps} (h9 : Pass9 s t) (h10 : Pass10 s t) (hsame : t.paTgt = t.paSecs) :
    (∃ u, eaddPages s (operandsOf t) = Check.raise .generalProtection u) ∨
      eaddPages s (operandsOf t) = Check.raise (.pageFault t.laSecs) s := by
  rw [eaddPages_through10 h9 h10]
  cases hbusy : secsBusy s.input t.paSecs with
  | true => exact .inl ⟨s, by rw [eaddSecsAvailable_faults hbusy, Check.raise_bind]⟩
  | false =>
    cases hown : ownHoldBusy s t.paTgt t.paSecs with
    | true => exact .inl ⟨s.drawn, by rw [eaddSecsAvailable_ownHold hbusy hown, Check.raise_bind]⟩
    | false =>
      have hnotSecs : ¬ SecsPageOk s t := fun hok => paTgt_ne_paSecs h10 hok hsame
      exact .inr (by rw [eaddSecsAvailable_of hbusy hown, Check.ok_bind, eaddSecsRecord_faults hnotSecs])

/-- Settles O24: a valid target faults at check 10, an invalid one at check 11 or 12. -/
theorem samePageAsTargetAndSecsFaults : Obligations.SamePageAsTargetAndSecsFaults := by
  refine fun s t h8 h9 hsame => ⟨fun hv => ?valid, fun h10 => ?invalid⟩
  case valid => exact ⟨_, _, exec_encls_of_eaddPages_raise h8 (eaddPages_validTarget h9 hv)⟩
  case invalid =>
    rcases eaddPages_samePage h9 h10 hsame with ⟨u, hgp⟩ | hpf
    · exact .inl ⟨u, exec_encls_of_eaddPages_raise h8 hgp⟩
    · exact .inr ⟨_, _, exec_encls_of_eaddPages_raise h8 hpf⟩

end Sys2Proof.Proofs
end

section
/-! PROOFS. The statements of spec/30_encoding.md: what decodes, the word of the opcode table, and what a step does with the
bytes at RIP. -/

namespace Sys2Proof.Proofs

open Sys2Proof.Machine Sys2Proof.Safety Sys2Proof.Machine.State

/-! ## What decodes -/

/-- Taking `code` off the front succeeds exactly where it stands there (the other direction is `decodePrefix_append`). -/
theorem decodePrefix_ok_iff {code bytes rest : List Byte} : decodePrefix code bytes = .ok rest ↔ bytes = code ++ rest := by
  refine ⟨fun h => ?_, fun h => h ▸ Laws.decodePrefix_append code rest⟩
  induction code, bytes using decodePrefix.induct with
  | case1 bytes => exact Except.ok.inj h
  | case2 c code => exact nomatch h
  | case3 code b bytes ih =>
    rw [decodePrefix, if_pos rfl] at h
    rw [ih h, List.cons_append]
  | case4 c code b bytes hne =>
    rw [decodePrefix, if_neg hne] at h
    exact nomatch h

/-- R61, R65: what decodes to ENCLS is its bytes with the rest after them. -/
theorem decode_encls_iff {code bytes rest : List Byte} :
    decode code bytes = .ok (.encls, rest) ↔ bytes = code ++ rest := by
  rw [← decodePrefix_ok_iff, decode]
  cases decodePrefix code bytes with
  | error e => exact ⟨nofun, nofun⟩
  | ok tail => simp

/-- Settles O1: ENCLS is the only instruction, and it decodes exactly where its bytes stand at the front. -/
theorem decodesExactlyTheEncodings : Obligations.DecodesExactlyTheEncodings := by
  rintro code bytes rest ⟨⟩
  exact decode_encls_iff.trans ⟨fun h => ⟨rfl, h⟩, And.right⟩

/-! ## The word of the opcode table -/

theorem length_numeralBytes (n w : Nat) : (numeralBytes n w).length = n := by
  induction n with
  | zero => rfl
  | succ n ih => rw [numeralBytes, List.length_cons, ih]

/-- R63: the bytes of a numeral determine it, up to the bytes that are cut off. -/
theorem mod_eq_of_numeralBytes_eq {n w v : Nat} (h : numeralBytes n w = numeralBytes n v) : w % 256 ^ n = v % 256 ^ n := by
  induction n with
  | zero => rw [Nat.pow_zero, Nat.mod_one, Nat.mod_one]
  | succ n ih =>
    obtain ⟨hhead, htail⟩ := List.cons.inj h
    have htop : w / 256 ^ n % 256 = v / 256 ^ n % 256 := by
      simpa only [BitVec.toNat_ofNat] using congrArg BitVec.toNat hhead
    rw [Nat.pow_succ, Nat.mod_mul, Nat.mod_mul, ih htail, htop]

theorem decodeTableWord_encls_iff {nbits w : Nat} :
    decodeTableWord nbits w = some .encls ↔ Cfg.default.enclsBytes <+: tableBytes nbits w := by
  have hdecode : decodeTableWord nbits w = some .encls ↔
      ∃ rest, decode Cfg.default.enclsBytes (tableBytes nbits w) = .ok (.encls, rest) := by
    rw [decodeTableWord]
    cases decode Cfg.default.enclsBytes (tableBytes nbits w) with
    | error e => exact ⟨nofun, nofun⟩
    | ok decoded => simp [Prod.ext_iff]
  exact hdecode.trans (exists_congr fun _ => decode_encls_iff.trans eq_comm)

theorem tableBytes_24 (w : Nat) : tableBytes 24 w = numeralBytes 3 w := List.append_nil _

/-- R63: a word of three bytes is ENCLS when it is the numeral of its three bytes. -/
theorem decodeTableWord_24_iff {w : Nat} (hw : w < 2 ^ 24) : decodeTableWord 24 w = some .encls ↔ w = 0x0F01CF := by
  refine ⟨fun h => ?_, fun h => h ▸ decodeTableWord_encls⟩
  rw [decodeTableWord_encls_iff, tableBytes_24] at h
  have hbytes : numeralBytes 3 0x0F01CF = numeralBytes 3 w :=
    h.eq_of_length (length_numeralBytes 3 w).symm
  have hmod := mod_eq_of_numeralBytes_eq hbytes
  omega

/-- Settles O2: a word is its three bytes, and a prefix differs from ENCLS in the first byte. -/
theorem tableWordIsEncls : Obligations.TableWordIsEncls :=
  ⟨fun _ hw => decodeTableWord_24_iff hw, decode_encls_iff.mpr rfl, rfl, rfl⟩

/-! ## The bytes fetched at RIP -/

/-- What is fetched stands in the program text at the addresses of log 46, up to the first that holds no byte. -/
theorem map_some_fetchBytes (s : State) (n : Nat) :
    (fetchBytes s n).map some = ((List.range n).map fun k => find? s.text (s.ripPlus k).toNat).takeWhile Option.isSome := by
  rw [fetchBytes, List.map_map]
  refine (List.map_congr_left fun x hx => ?_).trans (List.map_id _)
  obtain ⟨b, rfl⟩ := Option.isSome_iff_exists.mp (List.mem_takeWhile_imp hx)
  rfl

/-- A byte fetched is the one the program text holds at its address. -/
theorem text_of_getElem?_fetchBytes {s : State} {n k : Nat} {b : Byte} (h : (fetchBytes s n)[k]? = some b) :
    find? s.text (s.ripPlus k).toNat = some b := by
  obtain ⟨hk, rfl⟩ := List.getElem?_eq_some_iff.mp h
  have hprefix : (fetchBytes s n).map some <+: (List.range n).map fun k => find? s.text (s.ripPlus k).toNat :=
    map_some_fetchBytes s n ▸ List.takeWhile_prefix _
  have hread := hprefix.getElem (i := k) (by rwa [List.length_map])
  simpa using hread.symm

/-- Where the program text holds `bytes` at RIP, they are what is fetched. -/
theorem fetchBytes_of_text {s : State} {bytes : List Byte}
    (h : ∀ k (hk : k < bytes.length), find? s.text (s.ripPlus k).toNat = some bytes[k]) :
    fetchBytes s bytes.length = bytes := by
  have hread : (List.range bytes.length).map (fun k => find? s.text (s.ripPlus k).toNat) = bytes.map some :=
    List.ext_getElem (by simp) fun k hk _ => by simpa using h k (by simpa using hk)
  have hall : (bytes.map some).takeWhile Option.isSome = bytes.map some :=
    List.takeWhile_eq_self_iff.mpr (by simp)
  exact List.map_injective_iff.mpr (Option.some_injective Byte) (by rw [map_some_fetchBytes, hread, hall])

theorem fetch_ok_iff {s : State} {i : Instr} :
    fetch s = .ok i ↔ ∃ rest, decode s.cfg.enclsBytes (fetchBytes s s.cfg.enclsBytes.length) = .ok (i, rest) := by
  rw [fetch]
  cases decode s.cfg.enclsBytes (fetchBytes s s.cfg.enclsBytes.length) with
  | error e => exact ⟨nofun, nofun⟩
  | ok decoded => simp [Prod.ext_iff]

/-- R65: the only refusal of a fetch. -/
theorem fetch_error {s : State} {r : Refusal} (h : fetch s = .error r) : r = .notEncls := by
  rw [fetch] at h
  split at h
  · exact nomatch h
  · exact (Except.error.inj h).symm

/-- R61, R65: ENCLS is fetched exactly where the program text holds its bytes at RIP. -/
theorem fetch_encls_iff {s : State} :
    fetch s = .ok .encls ↔
      ∀ k (hk : k < s.cfg.enclsBytes.length), find? s.text (s.ripPlus k).toNat = some s.cfg.enclsBytes[k] := by
  simp only [fetch_ok_iff, decode_encls_iff]
  constructor
  · rintro ⟨rest, hrest⟩ k hk
    apply text_of_getElem?_fetchBytes
    rw [hrest, List.getElem?_append_left hk, List.getElem?_eq_getElem hk]
  · exact fun h => ⟨[], (fetchBytes_of_text h).trans (List.append_nil _).symm⟩

/-! ## What a step does with them -/

/-- Settles O4: the fetch answers the decoded instruction. -/
theorem stepRunsDecodedInstruction : Obligations.StepRunsDecodedInstruction := by
  intro s i rest _ hdecode
  have hfetch : fetch s = .ok i := fetch_ok_iff.mpr ⟨rest, hdecode⟩
  cases hexec : exec i s <;> simp only [step, hfetch, hexec]

/-- Settles O3: the bytes at RIP are fetched and decode to ENCLS. -/
theorem stepRunsEnclsAtRip : Obligations.StepRunsEnclsAtRip := by
  intro s htext
  obtain ⟨rest, hdecode⟩ := fetch_ok_iff.mp (fetch_encls_iff.mpr htext)
  exact stepRunsDecodedInstruction s .encls rest rfl hdecode

/-- Settles O5: at such a byte ENCLS is not fetched, and there is no other instruction. -/
theorem otherBytesAreRefused : Obligations.OtherBytesAreRefused := by
  intro s k hk hother
  rw [step]
  cases hfetch : fetch s with
  | error r => rw [fetch_error hfetch]
  | ok i => cases i with
    | encls => exact absurd (fetch_encls_iff.mp hfetch k hk) hother

end Sys2Proof.Proofs
end

section
/-! PROOFS. The statements of spec/40_encls_eadd.md, first part: admission and checks 1 to 8. With admission passed, what the stage
of the operands ends in is what the execution ends in. -/

namespace Sys2Proof.Proofs

open Sys2Proof.Machine Sys2Proof.Safety Sys2Proof.Machine.State

/-! ## Admission -/

/-- R71, D4: check 0 comes before everything but the processor's support for SGX1. -/
theorem eaddAdmission_of_cpl {s : State} (hsgx : s.cfg.sgx1Supported = true) (hcpl : s.cpl ≠ 0) :
    eaddAdmission s = Check.raise .invalidOpcode s := by
  have huser : (s.cpl == 0) = false := beq_false_of_ne hcpl
  rw [eaddAdmission, hsgx, huser]
  rfl

theorem exec_encls_of_no_sgx {s : State} (hsgx : s.cfg.sgx1Supported = false) :
    exec .encls s = .refused .sgxUnsupported := by
  rw [exec_encls, eaddAdmission, hsgx]
  rfl

/-- Settles O9: admission raises the exception. -/
theorem nonzeroCplRaisesUd : Obligations.NonzeroCplRaisesUd := by
  intro s hsgx hcpl
  rw [exec_encls, eaddAdmission_of_cpl hsgx hcpl, Check.raise_bind, Check.outcome_raise, raise_ud]

/-- A step that faults has executed ENCLS, which faults. -/
theorem step_fault {s : State} {f : Fault} (h : step s = .fault f) : exec .encls s = .fault f := by
  rw [step] at h
  split at h
  case h_1 => exact nomatch h
  case h_2 i _ =>
    cases i
    split at h
    case h_2 g hg => exact hg.trans h
    all_goals exact nomatch h

/-- Settles O10: an execution that goes on has passed admission, and one that does not is #UD or, without SGX1, refused. -/
theorem noEffectUnlessCplZero : Obligations.NoEffectUnlessCplZero := by
  refine fun s hcpl => ⟨fun u h => ?next, fun f h => ?fault⟩
  case next =>
    obtain ⟨v, hv, -⟩ := step_next h
    obtain ⟨_, _, _, ⟨-, hzero, -⟩, -⟩ := exec_encls_next_stages hv
    exact hcpl hzero
  case fault =>
    have hexec := step_fault h
    cases hsgx : s.cfg.sgx1Supported with
    | false => exact nomatch (exec_encls_of_no_sgx hsgx).symm.trans hexec
    | true =>
      obtain rfl : Fault.ud s = f := Host.Outcome.fault.inj ((nonzeroCplRaisesUd s hsgx hcpl).symm.trans hexec)
      rfl

/-- R64: EAX is tested after check 0. -/
theorem eaddAdmission_of_other_leaf {s : State} (hsgx : s.cfg.sgx1Supported = true) (hcpl : s.cpl = 0)
    (hleaf : s.regs.rax.toNat % 2 ^ 32 ≠ 1) : eaddAdmission s = Check.refuse .leafNotEadd := by
  have hother : (s.eax == 1) = false := by
    rw [← Bool.not_eq_true, eax_eq_one_iff]
    exact hleaf
  rw [eaddAdmission, hsgx, beq_iff_eq.mpr hcpl, hother]
  rfl

/-- R31: the upper halves are tested last. -/
theorem eaddAdmission_of_upper_bits {s : State} (hsgx : s.cfg.sgx1Supported = true) (hcpl : s.cpl = 0)
    (hleaf : s.regs.rax.toNat % 2 ^ 32 = 1) (hupper : ¬ (UpperClear s s.regs.rbx ∧ UpperClear s s.regs.rcx)) :
    eaddAdmission s = Check.refuse .mode32UpperBits := by
  have hbits : (upperHalfClear s.mode s.regs.rbx && upperHalfClear s.mode s.regs.rcx) = false := by
    rw [← Bool.not_eq_true, Bool.and_eq_true, upperHalfClear_iff, upperHalfClear_iff]
    exact hupper
  rw [eaddAdmission, hsgx, beq_iff_eq.mpr hcpl, (eax_eq_one_iff s).mpr hleaf, hbits]
  rfl

/-- Settles O11: the three refusals of admission, in their order. -/
theorem admissionRefusals : Obligations.AdmissionRefusals := by
  refine fun s => ⟨exec_encls_of_no_sgx, fun hsgx hcpl hleaf => ?leaf, fun hsgx hcpl hleaf hmode hlarge => ?upper⟩
  case leaf =>
    rw [exec_encls, eaddAdmission_of_other_leaf hsgx hcpl hleaf, Check.refuse_bind, Check.outcome_refuse]
  case upper =>
    have hupper : ¬ (UpperClear s s.regs.rbx ∧ UpperClear s s.regs.rcx) := by
      rintro ⟨hrbx, hrcx⟩
      have hb := hrbx hmode
      have hc := hrcx hmode
      omega
    rw [exec_encls, eaddAdmission_of_upper_bits hsgx hcpl hleaf hupper, Check.refuse_bind, Check.outcome_refuse]

/-! ## Checks 1 to 4 -/

theorem exec_encls_of_eaddOperands_raise {s u : State} {e : Exception} (h0 : Pass0 s)
    (h : eaddOperands s = Check.raise e u) : exec .encls s = .fault (raise e u) := by
  rw [exec_encls_of_admitted h0, eadd, h, Check.raise_bind, Check.outcome_raise]

theorem exec_encls_of_eaddOperands_refuse {s : State} {r : Refusal} (h0 : Pass0 s)
    (h : eaddOperands s = Check.refuse r) : exec .encls s = .refused r := by
  rw [exec_encls_of_admitted h0, eadd, h, Check.refuse_bind, Check.outcome_refuse]

/-- Settles O12: DS:RBX is the first operand tested. -/
theorem misalignedPageinfoRaisesGp : Obligations.MisalignedPageinfoRaisesGp := by
  intro s h0 hbad
  apply exec_encls_of_eaddOperands_raise h0 (e := .generalProtection)
  rw [eaddOperands, alignedLinear_faults (by decide) hbad, Check.raise_bind]

/-- Settles O13: DS:RCX is tested next. -/
theorem misalignedTargetRaisesGp : Obligations.MisalignedTargetRaisesGp := by
  intro s t h0 h1 hbad
  apply exec_encls_of_eaddOperands_raise h0 (e := .generalProtection)
  rw [eaddOperands, alignedLinear_of (by decide) h1.1 h1.2, Check.ok_bind, alignedLinear_faults (by decide) hbad,
    Check.raise_bind]

/-- Settles O14: the target is the first operand translated. -/
theorem targetOutsideEpcRaisesPf : Obligations.TargetOutsideEpcRaisesPf := by
  intro s t h0 h1 h2 hout
  have hstop : eaddOperands s = Check.raise (.pageFault t.laTgt) s := by
    rw [eaddOperands, alignedLinear_of (by decide) h1.1 h1.2, Check.ok_bind, alignedLinear_of (by decide) h2.1 h2.2,
      Check.ok_bind, resolveEpc_faults hout, Check.raise_bind]
  exact ⟨_, _, exec_encls_of_eaddOperands_raise h0 hstop⟩

/-- Settles O15: PAGEINFO is translated next; the model reports its first byte (log 38). -/
theorem unreadablePageinfo : Obligations.UnreadablePageinfo := by
  rintro s t ⟨h0, h1, h2, h3⟩
  refine ⟨fun hnone => ?fault, fun pa hsome hepc => ?refused⟩
  case fault =>
    have hstop : eaddOperands s = Check.raise (.pageFault t.laPi) s := by
      rw [eaddOperands_through3 h1 h2 h3, resolveOutside_faults hnone, Check.raise_bind]
    exact ⟨t.laPi, _, _, exec_encls_of_eaddOperands_raise h0 hstop, rfl⟩
  case refused =>
    apply exec_encls_of_eaddOperands_refuse h0
    rw [eaddOperands_through3 h1 h2 h3, resolveOutside_refuses hsome hepc, Check.refuse_bind]

/-! ## Checks 5 to 8 -/

/-- Settles O16: with PAGEINFO read, its pointers and LINADDR are tested. -/
theorem misalignedPointersRaiseGp : Obligations.MisalignedPointersRaiseGp := by
  rintro s t ⟨h0, h1, h2, h3⟩ h4 husable hbad
  have hstop : eaddOperands s = Check.raise .generalProtection s := by
    rw [eaddOperands_through3 h1 h2 h3, resolveOutside_of h4.1 h4.2.1, Check.ok_bind, readPageInfo_of h4]
    simp only [eaddPointers_faults husable hbad, Check.raise_bind]
  exact ⟨_, exec_encls_of_eaddOperands_raise h0 hstop⟩

/-- Settles O18: the SECS is translated next. -/
theorem secsOutsideEpcRaisesPf : Obligations.SecsOutsideEpcRaisesPf := by
  rintro s t ⟨⟨h0, h1, h2, h3⟩, h4, h5⟩ hout
  have hstop : eaddOperands s = Check.raise (.pageFault t.laSecs) s := by
    rw [eaddOperands_through5 h1 h2 h3 h4 h5, resolveEpc_faults hout, Check.raise_bind]
  exact ⟨_, _, exec_encls_of_eaddOperands_raise h0 hstop⟩

/-- Settles O19: SECINFO is translated, then its test raises or refuses; the model reports its first byte (log 38). -/
theorem secinfoChecked : Obligations.SecinfoChecked := by
  rintro s t ⟨⟨h0, h1, h2, h3⟩, h4, h5⟩ h6
  refine ⟨fun hnone => ?unreadable, fun pa hsome hepc => ?inEpc, fun h7 hbad => ?test, fun h7 hok hopen => ?openBits⟩
  case unreadable =>
    have hstop : eaddOperands s = Check.raise (.pageFault t.laSi) s := by
      rw [eaddOperands_through5 h1 h2 h3 h4 h5, resolveEpc_of h6.1 h6.2, Check.ok_bind, resolveOutside_faults hnone,
        Check.raise_bind]
    exact ⟨t.laSi, _, _, exec_encls_of_eaddOperands_raise h0 hstop, rfl⟩
  case inEpc =>
    apply exec_encls_of_eaddOperands_refuse h0
    rw [eaddOperands_through5 h1 h2 h3 h4 h5, resolveEpc_of h6.1 h6.2, Check.ok_bind, resolveOutside_refuses hsome hepc,
      Check.refuse_bind]
  case test =>
    have hstop : eaddOperands s = Check.raise .generalProtection s := by
      rw [eaddOperands_through7 h1 h2 h3 h4 h5 h6 h7, eaddSecInfoCheck_faults hbad, Check.raise_bind]
    exact ⟨_, exec_encls_of_eaddOperands_raise h0 hstop⟩
  case openBits =>
    apply exec_encls_of_eaddOperands_refuse h0
    rw [eaddOperands_through7 h1 h2 h3 h4 h5 h6 h7, eaddSecInfoCheck_refuses hok hopen, Check.refuse_bind]

end Sys2Proof.Proofs
end

section
/-! PROOFS. The statements of spec/40_encls_eadd.md, second part: checks 9 to 17, and the state that a fault leaves. -/

namespace Sys2Proof.Proofs

open Sys2Proof.Machine Sys2Proof.Safety Sys2Proof.Machine.State

/-! ## Checks 9 to 12 -/

/-- R79: the VM exit, whatever checks 10 to 17 would find. -/
theorem exec_encls_of_busyTarget_exits {s : State} {t : Temps} (h8 : Through8 s t) (hbusy : targetBusy s.input t.paTgt = true)
    (hv : s.vmxNonRoot = true ∧ s.epcVirtExt = true) :
    exec .encls s = .fault (vmExit (conflictExit t.laTgt t.paTgt) s) := by
  rw [exec_encls_of_through8 h8, eaddPages, operandsOf, eaddTargetAvailable_exits hbusy hv]
  rfl

/-- R79: `#GP(0)` without the VMX conditions, whatever checks 10 to 17 would find. -/
theorem exec_encls_of_busyTarget_faults {s : State} {t : Temps} (h8 : Through8 s t) (hbusy : targetBusy s.input t.paTgt = true)
    (hv : ¬ (s.vmxNonRoot = true ∧ s.epcVirtExt = true)) : exec .encls s = .fault (.gp 0 s) := by
  rw [exec_encls_of_through8 h8, eaddPages, operandsOf, eaddTargetAvailable_faults hbusy hv]
  rfl

/-- Settles O20: the exit carries the five values of R79 and writes them. -/
theorem busyTargetExitsOrRaisesGp : Obligations.BusyTargetExitsOrRaisesGp := by
  refine fun s t h8 hbusy => ⟨fun hv => ?exit, fun hv => ?fault⟩
  case exit => exact ⟨_, _, exec_encls_of_busyTarget_exits h8 hbusy hv, rfl, rfl, rfl, rfl, rfl, rfl⟩
  case fault => exact ⟨s, exec_encls_of_busyTarget_faults h8 hbusy hv⟩

/-- Settles O34: check 9 reads nothing but the target and the VMX conditions, in which the two states agree. -/
theorem busyTargetOutranksLaterChecks : Obligations.BusyTargetOutranksLaterChecks := by
  intro s s' t t' h8 h8' hbusy hbusy' hla hpa hroot hext
  by_cases hv : s.vmxNonRoot = true ∧ s.epcVirtExt = true
  · have hexit' := exec_encls_of_busyTarget_exits h8' hbusy' (hroot ▸ hext ▸ hv)
    rw [← hla, ← hpa] at hexit'
    exact .inr ⟨_, exec_encls_of_busyTarget_exits h8 hbusy hv, hexit'⟩
  · have hfault' := exec_encls_of_busyTarget_faults h8' hbusy' (hroot ▸ hext ▸ hv)
    exact .inl ⟨exec_encls_of_busyTarget_faults h8 hbusy hv, hfault'⟩

/-- Settles O21: with check 9 passed the target's entry is tested. -/
theorem validTargetRaisesPf : Obligations.ValidTargetRaisesPf :=
  fun _ _ h8 h9 hvalid => ⟨_, _, exec_encls_of_eaddPages_raise h8 (eaddPages_validTarget h9 hvalid)⟩

/-- Settles O22: with checks 9 and 10 passed the SECS's availability is tested, and there is no other outcome. -/
theorem busySecsRaisesGp : Obligations.BusySecsRaisesGp := by
  rintro s t ⟨h8, h9, h10⟩ hbusy
  have hstop : eaddPages s (operandsOf t) = Check.raise .generalProtection s := by
    rw [eaddPages_through10 h9 h10, eaddSecsAvailable_faults hbusy, Check.raise_bind]
  exact ⟨_, exec_encls_of_eaddPages_raise h8 hstop⟩

/-- Settles O23: on another page than the target the leaf's own hold is no matter (R59), and the SECS's entry is tested. -/
theorem invalidSecsRaisesPf : Obligations.InvalidSecsRaisesPf := by
  rintro s t ⟨h8, h9, h10⟩ h11 hne hbad
  have hstop : eaddPages s (operandsOf t) = Check.raise (.pageFault t.laSecs) s := by
    rw [eaddPages_through10 h9 h10, eaddSecsAvailable_of h11 (ownHoldBusy_of_ne hne), Check.ok_bind,
      eaddSecsRecord_faults hbad]
  exact ⟨_, _, exec_encls_of_eaddPages_raise h8 hstop⟩

/-! ## Checks 13 to 17 -/

theorem exec_encls_of_eaddContents_raise {s u : State} {t : Temps} {e : Exception} (h12 : Through12 s t)
    (h : eaddContents s (operandsOf t) t.secs = Check.raise e u) : exec .encls s = .fault (raise e u) := by
  rw [exec_encls_of_through12 h12, h, Check.raise_bind, Check.outcome_raise]

theorem exec_encls_of_eaddContents_refuse {s : State} {t : Temps} {r : Refusal} (h12 : Through12 s t)
    (h : eaddContents s (operandsOf t) t.secs = Check.refuse r) : exec .encls s = .refused r := by
  rw [exec_encls_of_through12 h12, h, Check.refuse_bind, Check.outcome_refuse]

/-- Settles O26: the source page is translated first. -/
theorem unreadableSourcePage : Obligations.UnreadableSourcePage := by
  refine fun s t h12 => ⟨fun hnone => ?fault, fun pa hsome hepc => ?refused⟩
  case fault =>
    have hstop : eaddContents s (operandsOf t) t.secs = Check.raise (.pageFault t.laSrc) (s.spoilPage t.paTgt) := by
      rw [eaddContents, operandsOf, resolveOutside_faults hnone, Check.raise_bind]
    exact ⟨_, _, exec_encls_of_eaddContents_raise h12 hstop⟩
  case refused =>
    apply exec_encls_of_eaddContents_refuse h12
    rw [eaddContents, operandsOf, resolveOutside_refuses hsome hepc, Check.refuse_bind]

/-- R84: check 14 failing is `#GP(0)`. -/
theorem raisesGp_of_not_pageTypeOk {s : State} {t : Temps} (hc : s.cfg.wf = true) (h13 : Through13 s t)
    (hbad : ¬ PageTypeOk s t) : RaisesGp s := by
  have hstop : eaddContents s (operandsOf t) t.secs = Check.raise .generalProtection (s.spoilPage t.paTgt) := by
    rw [eaddContents_through13 h13.2, eaddTypeCheck_faults hc hbad, Check.raise_bind]
  exact ⟨_, exec_encls_of_eaddContents_raise h13.1 hstop⟩

/-- Settles O27: three ways of failing check 14, and the refusal that comes after it. -/
theorem pageTypeChecked : Obligations.PageTypeChecked := by
  refine fun s t hc h13 => ⟨fun htcs hbad => ?reserved, fun htcs hbad => ?limits, fun htcs hok hflags => ?flags,
    fun hreg hw hr => ?regular⟩
  case reserved => exact raisesGp_of_not_pageTypeOk hc h13 fun hok => hbad (hok.1 htcs).1
  case limits => exact raisesGp_of_not_pageTypeOk hc h13 fun hok => hbad (hok.1 htcs).2
  case flags =>
    apply exec_encls_of_eaddContents_refuse h13.1
    rw [eaddContents_through13 h13.2, eaddTypeCheck_refuses hc hok htcs hflags, Check.refuse_bind]
  case regular =>
    exact raisesGp_of_not_pageTypeOk hc h13 fun hok => Bool.false_ne_true (hr.symm.trans (hok.2 hreg hw))

/-- The stage with checks 13 and 14 passed. -/
theorem eaddContents_through14 {s : State} {t : Temps} (hc : s.cfg.wf = true) (h13 : Pass13 s t) (h14 : Pass14 s t) :
    eaddContents s (operandsOf t) t.secs = (do
      eaddRangeCheck t.info.linaddr t.secs (s.spoilPage t.paTgt)
      Check.require (!measureBusy s.input t.paSecs) .generalProtection (s.spoilPage t.paTgt)
      Check.require (!t.secs.init) .generalProtection (s.spoilPage t.paTgt)
      Check.allow (counterOk s.cfg t.secs.mrcount) .counterOverflow
      return t.paSrc) := by
  rw [eaddContents_through13 h13, eaddTypeCheck_of hc h14, Check.ok_bind]

/-- R85: check 15 failing is `#GP(0)`. -/
theorem raisesGp_of_outOfRange {s : State} {t : Temps} (hc : s.cfg.wf = true) (h13 : Through13 s t) (h14 : Pass14 s t)
    (hfits : t.secs.baseAddr.toNat + t.secs.size.toNat < 2 ^ 64)
    (hout : t.info.linaddr.toNat < t.secs.baseAddr.toNat ∨
      t.secs.baseAddr.toNat + t.secs.size.toNat ≤ t.info.linaddr.toNat) : RaisesGp s := by
  have hstop : eaddContents s (operandsOf t) t.secs = Check.raise .generalProtection (s.spoilPage t.paTgt) := by
    rw [eaddContents_through14 hc h13.2 h14, eaddRangeCheck_faults hfits hout, Check.raise_bind]
  exact ⟨_, exec_encls_of_eaddContents_raise h13.1 hstop⟩

/-- Settles O28: the end of the range is tested before LINADDR. -/
theorem enclaveRangeChecked : Obligations.EnclaveRangeChecked := by
  refine fun s t hc h13 h14 => ⟨fun hover => ?overflow, fun hfits hlow => ?below, fun hfits hhigh => ?above⟩
  case overflow =>
    apply exec_encls_of_eaddContents_refuse h13.1
    rw [eaddContents_through14 hc h13.2 h14, eaddRangeCheck_refuses hover, Check.refuse_bind]
  case below => exact raisesGp_of_outOfRange hc h13 h14 hfits (.inl hlow)
  case above => exact raisesGp_of_outOfRange hc h13 h14 hfits (.inr hhigh)

/-- Settles O29: with checks 13 to 15 passed the measurement's availability is tested. -/
theorem busyMeasurementRaisesGp : Obligations.BusyMeasurementRaisesGp := by
  rintro s t hc ⟨⟨h12, h13⟩, h14, h15⟩ hbusy
  have hstop : eaddContents s (operandsOf t) t.secs = Check.raise .generalProtection (s.spoilPage t.paTgt) := by
    rw [eaddContents_through14 hc h13 h14, eaddRangeCheck_of h15, Check.ok_bind, hbusy, Bool.not_true, Check.require_false,
      Check.raise_bind]
  exact ⟨_, exec_encls_of_eaddContents_raise h12 hstop⟩

/-- Settles O30: the initialization is tested next. -/
theorem initializedEnclaveRaisesGp : Obligations.InitializedEnclaveRaisesGp := by
  rintro s t hc ⟨⟨h12, h13⟩, h14, h15⟩ h16 hinit
  have hstop : eaddContents s (operandsOf t) t.secs = Check.raise .generalProtection (s.spoilPage t.paTgt) := by
    rw [eaddContents_through14 hc h13 h14, eaddRangeCheck_of h15, Check.ok_bind, h16, Bool.not_false, Check.require_true,
      Check.ok_bind, hinit, Bool.not_true, Check.require_false, Check.raise_bind]
  exact ⟨_, exec_encls_of_eaddContents_raise h12 hstop⟩

/-! ## State after a fault -/

/-- An exception leaves its state as it is, the count of free values aside. -/
theorem faultState_raise (e : Exception) (u : State) : faultState (raise e u) = u ∨ faultState (raise e u) = u.drawn := by
  cases e with
  | generalProtection => exact .inl rfl
  | pageFault lin => exact .inr rfl
  | invalidOpcode => exact .inl rfl

theorem raise_ne_vmExit (e : Exception) (u : State) (v : Vmcs) (w : State) : raise e u ≠ .vmExit v w := by
  cases e <;> exact nofun

/-- Settles O32: of the ways to fault, the one after check 12 is excluded. -/
theorem earlyFaultsChangeNothing : Obligations.EarlyFaultsChangeNothing := by
  intro s f h hearly
  rcases exec_encls_fault h with ⟨t, -, rfl⟩ | ⟨e, u, hu, rfl, -⟩ | ⟨t, e, h12, -⟩
  · exact ⟨fun v u hexit => by cases hexit; rfl, fun hno => absurd rfl (hno _ _)⟩
  · refine ⟨fun v w hexit => absurd hexit (raise_ne_vmExit e u v w), fun _ => ?_⟩
    rcases hu with rfl | rfl <;> rcases faultState_raise e _ with hst | hst <;> rw [hst] <;> rfl
  · exact absurd ⟨t, h12⟩ hearly

/-- Drawing a free value is no other difference. -/
theorem sameButPage_drawn {s u : State} {pa : Qword} (h : SameButPage s u pa) : SameButPage s u.drawn pa := h

/-- Settles O33: with checks 0 to 12 passed only the last stage can fault, and it does so with the target page spoilt. -/
theorem lateFaultsChangeOnlyTheTargetPage : Obligations.LateFaultsChangeOnlyTheTargetPage := by
  intro s t f h12 h
  have h10 : Pass10 s t := h12.1.2.2
  have hsame := sameButPage_spoilPage s t.paTgt
  rw [exec_encls_of_through12 h12] at h
  rcases Check.bind_fault (Check.outcome_fault h) with hcontents | ⟨_, -, heffects⟩
  · obtain ⟨e, rfl⟩ : ∃ e, f = raise e (s.spoilPage t.paTgt) := eaddContents_fault hcontents
    rcases faultState_raise e (s.spoilPage t.paTgt) with hst | hst <;> rw [hst]
    · exact ⟨hsame, h10⟩
    · exact ⟨sameButPage_drawn hsame, h10⟩
  · exact nomatch heffects

end Sys2Proof.Proofs
end

section
/-! PROOFS. The statements of spec/40_encls_eadd.md, third part: what is written with every check passed, the EPCM entry, the
page and the measurement. -/

namespace Sys2Proof.Proofs

open Sys2Proof.Machine Sys2Proof.Safety Sys2Proof.Machine.State

/-! ## When an execution goes on -/

theorem exec_encls_effectsOn {s : State} {t : Temps} (hc : s.cfg.wf = true) (h : AllPass s t) :
    exec .encls s = .next (effectsOn s t) :=
  exec_encls_of_allPass hc h

/-- Settles O40: an execution that goes on has passed every check, and one that passes every check has the effects. -/
theorem goesOnExactlyWhenEveryCheckPasses : Obligations.GoesOnExactlyWhenEveryCheckPasses := by
  refine fun s hc => ⟨fun ⟨u, h⟩ => ?passed, fun ⟨t, h⟩ => ⟨_, exec_encls_effectsOn hc h⟩⟩
  case passed =>
    obtain ⟨t, hpass, -⟩ := exec_encls_next hc h
    exact ⟨t, hpass⟩

/-! ## The EPCM entry and the measurement -/

section Written

variable {s : State} {t : Temps}

theorem through12_of_allPass (h : AllPass s t) : Through12 s t := h.1.1.1

/-- R90 for a page that is no TCS: the entry has the attributes of SECINFO as read. -/
theorem epcmEntry_effectsOn_of_not_tcs (hc : s.cfg.wf = true) (hreg : ¬ IsTcs s t) :
    (effectsOn s t).epcmEntry t.paTgt =
      { s.epcmEntry t.paTgt with
        valid := true, pt := PtOf s.cfg t.si
        r := t.si.getLsbD s.cfg.secInfo.r, w := t.si.getLsbD s.cfg.secInfo.w, x := t.si.getLsbD s.cfg.secInfo.x
        enclaveAddress := t.info.linaddr, enclaveSecs := s.secsIdentifier t.paSecs t.secs
        blocked := false, pending := false, modified := false } := by
  rw [epcmEntry_effectsOn_target, addedEntry, secInfoPt_forcedSecInfo hc, forcedSecInfo_of_not_tcs hreg]

/-- R88, R90 for a TCS page: the entry has no access rights. -/
theorem epcmEntry_effectsOn_of_tcs (hc : s.cfg.wf = true) (htcs : IsTcs s t) :
    (effectsOn s t).epcmEntry t.paTgt =
      { s.epcmEntry t.paTgt with
        valid := true, pt := PtOf s.cfg t.si, r := false, w := false, x := false
        enclaveAddress := t.info.linaddr, enclaveSecs := s.secsIdentifier t.paSecs t.secs
        blocked := false, pending := false, modified := false } := by
  obtain ⟨hr, hw, hx⟩ := rwx_forcedSecInfo_of_tcs hc htcs
  rw [epcmEntry_effectsOn_target, addedEntry, secInfoPt_forcedSecInfo hc, hr, hw, hx]

/-- R89: the record after the effects, with the measured block in its three fields. -/
theorem secsRecord?_effectsOn_paSecs :
    (effectsOn s t).secsRecord? t.paSecs = some (measuredSecs s.cfg t.secs t.info.linaddr (forcedSecInfo s.cfg t.si)) :=
  secsRecord?_eaddEffects_self s (operandsOf t) t.secs t.paSrc

theorem mem_effectsOn_of_not_tcs (hreg : ¬ IsTcs s t) : (effectsOn s t).mem = copiedMem s t.paSrc t.paTgt := by
  rw [effectsOn, eaddEffects_mem, eaddMem, operandsOf, secInfoPt_eq, if_neg hreg]

theorem mem_effectsOn_of_tcs (htcs : IsTcs s t) :
    (effectsOn s t).mem = forceTcs s.cfg.tcs t.paTgt (copiedMem s t.paSrc t.paTgt) := by
  rw [effectsOn, eaddEffects_mem, eaddMem, operandsOf, secInfoPt_eq, if_pos htcs]

/-- R83: byte k of the copy. -/
theorem byte_copiedMem_target (paSrc paTgt : Qword) {k : Nat} (hk : k < 4096) :
    (copiedMem s paSrc paTgt).byte (paTgt.toNat + k) = s.mem.byte (paSrc.toNat + k) := by
  rw [byte_copiedMem, if_pos (by omega), Nat.add_sub_cancel_left]

end Written

/-- Settles O37: the two forms of the entry are one, with R, W and X masked; the SECS page is valid and the target is not. -/
theorem epcmEntryIsWritten : Obligations.EpcmEntryIsWritten := by
  intro s t hc hpass
  obtain ⟨⟨-, -, h10⟩, -, h12⟩ := through12_of_allPass hpass
  refine ⟨_, exec_encls_effectsOn hc hpass, ?_, fun p hp => epcmEntry_effectsOn_of_ne hp, (paTgt_ne_paSecs h10 h12.1).symm⟩
  by_cases htcs : IsTcs s t
  · have hmask : decide (¬ IsTcs s t) = false := decide_eq_false (not_not_intro htcs)
    rw [epcmEntry_effectsOn_of_tcs hc htcs, hmask, Bool.false_and, Bool.false_and, Bool.false_and]
  · have hmask : decide (¬ IsTcs s t) = true := decide_eq_true htcs
    rw [epcmEntry_effectsOn_of_not_tcs hc htcs, hmask, Bool.true_and, Bool.true_and, Bool.true_and]

/-- Settles O35: SECINFO is as read, the page is the copy. -/
theorem regularPageIsAdded : Obligations.RegularPageIsAdded := by
  intro s t hc hpass hreg
  obtain ⟨⟨⟨-, ⟨-, htype⟩, -⟩, -⟩, -⟩ := through12_of_allPass hpass
  have hpt : PtOf s.cfg t.si = s.cfg.pageTypes.reg := htype.resolve_right hreg
  refine ⟨_, exec_encls_effectsOn hc hpass, rfl, fun k hk => ?page, ?entry, ?secs⟩
  case page => rw [mem_effectsOn_of_not_tcs hreg, byte_copiedMem_target _ _ hk]
  case entry => rw [epcmEntry_effectsOn_of_not_tcs hc hreg, hpt]
  case secs =>
    rw [secsRecord?_effectsOn_paSecs, forcedSecInfo_of_not_tcs hreg]
    rfl

/-! ## A value read after it was written -/

/-- R37: bytes that are those of a value read as its low bytes. -/
theorem readNat_of_bytes {m : Memory} {a n v : Nat} (h : ∀ k, k < n → (m.byte (a + k)).toNat = v / 256 ^ k % 256) :
    m.readNat a n = v % 256 ^ n := by
  induction n generalizing a v with
  | zero => rw [Nat.pow_zero, Nat.mod_one]; rfl
  | succ n ih =>
    have hfirst : (m.byte a).toNat = v % 256 := by simpa using h 0 (Nat.succ_pos n)
    have hrest : m.readNat (a + 1) n = v / 256 % 256 ^ n := ih fun k hk => by
      rw [Nat.div_div_eq_div_mul, ← Nat.pow_succ', ← h (k + 1) (by omega), Nat.add_assoc, Nat.add_comm 1]
    rw [readNat_succ, hfirst, hrest, Nat.pow_succ', Nat.mod_mul]

theorem readNat_writeNat (m : Memory) (a n v : Nat) : (m.writeNat a n v).readNat a n = v % 256 ^ n :=
  readNat_of_bytes fun k hk => by
    rw [memoryWritesLittleEndian, if_pos (by omega), Nat.add_sub_cancel_left]

/-! ## The forcing of a TCS page (R88) -/

section Forcing

variable (l : TcsLayout) (pa : Qword) (m : Memory)

theorem fieldsApart_comm {f g : Field} (h : Cfg.fieldsApart f g = true) : Cfg.fieldsApart g f = true := by
  rw [Cfg.fieldsApart, Bool.or_comm]
  exact h

theorem readField_writeField_self (f : Field) {v : Nat} (hv : v < 256 ^ f.size) : readField (writeField m pa f v) pa f = v := by
  rw [readField, writeField, readNat_writeNat, Nat.mod_eq_of_lt hv]

theorem readField_writeField_of_apart {f g : Field} (v : Nat) (h : Cfg.fieldsApart f g = true) :
    readField (writeField m pa f v) pa g = readField m pa g := by
  rw [Cfg.fieldsApart, Bool.or_eq_true, decide_eq_true_eq, decide_eq_true_eq] at h
  exact Memory.readNat_congr fun k hk => byte_writeField_of_outside m pa f v (by omega)

/-- A byte that is zero stays so when a field is cleared. -/
theorem byte_clearField_eq_zero (f : Field) {x : Nat} (h : m.byte x = 0) : (writeField m pa f 0).byte x = 0 := by
  by_cases hin : pa.toNat + f.off ≤ x ∧ x < pa.toNat + f.off + f.size
  · exact byte_writeField_zero m pa f hin.1 hin.2
  · rw [byte_writeField_of_outside m pa f 0 (by omega), h]

/-- STATE, CSSA and AEP are cleared; a later write only clears more. -/
theorem byte_forceTcs_cleared {f : Field} (hf : f ∈ [l.state, l.cssa, l.aep]) {k : Nat} (hk : k < f.size) :
    (forceTcs l pa m).byte (pa.toNat + f.off + k) = 0 := by
  have hclear : ∀ m' : Memory, (writeField m' pa f 0).byte (pa.toNat + f.off + k) = 0 := fun m' =>
    byte_writeField_zero m' pa f (by omega) (by omega)
  simp only [List.mem_cons, List.not_mem_nil, or_false] at hf
  rw [forceTcs]
  rcases hf with rfl | rfl | rfl
  · exact hclear _
  · exact byte_clearField_eq_zero _ _ _ (byte_clearField_eq_zero _ _ _ (hclear _))
  · exact byte_clearField_eq_zero _ _ _ (hclear _)

/-- Bytes outside the four fields are as they were. -/
theorem byte_forceTcs_of_no_field {k : Nat}
    (h : ∀ f ∈ [l.state, l.flags, l.cssa, l.aep], k < f.off ∨ f.off + f.size ≤ k) :
    (forceTcs l pa m).byte (pa.toNat + k) = m.byte (pa.toNat + k) := by
  simp only [List.mem_cons, List.not_mem_nil, or_false, forall_eq_or_imp, forall_eq] at h
  obtain ⟨hstate, hflags, hcssa, haep⟩ := h
  rw [forceTcs, byte_writeField_of_outside _ _ _ _ (by omega), byte_writeField_of_outside _ _ _ _ (by omega),
    byte_writeField_of_outside _ _ _ _ (by omega), byte_writeField_of_outside _ _ _ _ (by omega)]

/-- FLAGS shares no byte with the fields written after it, and keeps every bit but DBGOPTIN. -/
theorem readField_forceTcs_flags {c : Cfg} (hc : c.wf = true) :
    readField (forceTcs c.tcs pa m) pa c.tcs.flags = clearDbgoptin c.tcs (readField m pa c.tcs.flags) := by
  obtain ⟨hstate, hcssa, haep⟩ := tcsApart_of_wf hc
  have hlt : readField m pa c.tcs.flags < 2 ^ (8 * c.tcs.flags.size) := by
    rw [Nat.pow_mul]
    exact Memory.readNat_lt m _ _
  have hfits : clearDbgoptin c.tcs (readField m pa c.tcs.flags) < 256 ^ c.tcs.flags.size := by
    rw [show 256 = 2 ^ 8 by decide, ← Nat.pow_mul]
    exact clearDbgoptin_lt c.tcs hlt
  rw [forceTcs, readField_writeField_of_apart _ _ _ hstate,
    readField_writeField_of_apart _ _ _ (fieldsApart_comm haep), readField_writeField_of_apart _ _ _ (fieldsApart_comm hcssa),
    readField_writeField_self _ _ _ hfits]

end Forcing

/-- R88: SECINFO with R, W and X cleared is determined by its bits. -/
theorem eq_clearRwx {l : SecInfoLayout} {si si' : BitVec 512}
    (h : ∀ i, i < 512 → si'.getLsbD i = (si.getLsbD i && decide (i ≠ l.r ∧ i ≠ l.w ∧ i ≠ l.x))) : si' = clearRwx l si := by
  apply BitVec.eq_of_getLsbD_eq
  intro i hi
  rw [h i hi, getLsbD_clearRwx l si i hi]
  simp [Bool.and_assoc]

theorem forcedSecInfo_of_tcs {s : State} {t : Temps} (htcs : IsTcs s t) :
    forcedSecInfo s.cfg t.si = clearRwx s.cfg.secInfo t.si := by
  rw [forcedSecInfo, secInfoPt_eq, if_pos htcs]

/-- Settles O36: the page is the copy with its fields forced, and what is measured is SECINFO with R, W and X cleared. -/
theorem tcsPageIsAdded : Obligations.TcsPageIsAdded := by
  intro s t si hc hpass htcs hsi
  have hflags : readField (effectsOn s t).mem t.paTgt s.cfg.tcs.flags =
      clearDbgoptin s.cfg.tcs (readField s.mem t.paSrc s.cfg.tcs.flags) := by
    rw [mem_effectsOn_of_tcs htcs, readField_forceTcs_flags _ _ hc, readField_copiedMem _ _ _ _ (tcs_of_wf hc).1.2.1]
  refine ⟨_, exec_encls_effectsOn hc hpass, rfl, fun f hf k hk => ?cleared, ?dbgoptin, fun i hi => ?flags,
    fun k hk hout => ?page, ?entry, ?secs⟩
  case cleared => rw [mem_effectsOn_of_tcs htcs, byte_forceTcs_cleared _ _ _ hf hk]
  case dbgoptin => rw [hflags, testBit_clearDbgoptin, decide_eq_false (not_not_intro rfl), Bool.and_false]
  case flags => rw [hflags, testBit_clearDbgoptin, decide_eq_true hi, Bool.and_true]
  case page => rw [mem_effectsOn_of_tcs htcs, byte_forceTcs_of_no_field _ _ _ hout, byte_copiedMem_target _ _ hk]
  case entry => rw [epcmEntry_effectsOn_of_tcs hc htcs, htcs]
  case secs =>
    rw [secsRecord?_effectsOn_paSecs, forcedSecInfo_of_tcs htcs, ← eq_clearRwx hsi]
    rfl

end Sys2Proof.Proofs
end

section
/-! PROOFS. The statements of spec/40_encls_eadd.md, fourth part: valid pages and initialized enclaves, the same page added twice,
what is measured, and the vectors of SHA256UPDATE. -/

namespace Sys2Proof.Proofs

open Sys2Proof.Machine Sys2Proof.Safety Sys2Proof.Machine.State

/-! ## Valid pages and initialized enclaves -/

/-- Settles O49: the target is not valid, so a valid page is another, and as both are aligned they share no byte. -/
theorem validPagesAreNeverTouched : Obligations.ValidPagesAreNeverTouched := by
  intro s u pa hc haligned hvalid h
  obtain ⟨v, hv, rfl⟩ := step_next h
  obtain ⟨t, hpass, rfl⟩ := exec_encls_next hc hv
  obtain ⟨⟨⟨⟨⟨h3, -⟩, -⟩, -⟩, -, h10⟩, -⟩ := through12_of_allPass hpass
  have hne : pa ≠ t.paTgt := ne_target_of_valid h10 hvalid
  have hapart := toNat_ne hne
  have htarget := paTgt_aligned h3
  refine ⟨?entry, fun k hk => ?byte⟩
  case entry => rw [epcmEntry_betweenSteps, epcmEntry_eaddEffects_of_ne _ (operandsOf t) _ _ hne]
  case byte =>
    rw [betweenSteps_mem, eaddEffects_mem]
    exact byte_eaddMem_of_outside hc (operandsOf t) t.paSrc (by simp only [operandsOf]; omega)

/-- Settles O51: check 17 found the SECS of the execution not initialized, so an initialized one is another. -/
theorem initializedEnclaveIsFrozen : Obligations.InitializedEnclaveIsFrozen := by
  intro s u ps r hc hr hinit h
  obtain ⟨v, hv, rfl⟩ := step_next h
  obtain ⟨t, hpass, rfl⟩ := exec_encls_next hc hv
  obtain ⟨-, -, -, hrec⟩ := through12_of_allPass hpass
  obtain ⟨-, -, h17, -⟩ := hpass
  have hne : ps ≠ t.paSecs := by
    rintro rfl
    obtain rfl : r = t.secs := Option.some.inj (hr.symm.trans hrec)
    exact Bool.false_ne_true (h17.symm.trans hinit)
  rw [secsRecord?_betweenSteps, secsRecord?_eaddEffects_of_ne _ (operandsOf t) _ _ hne, hr]

/-! ## The same page added twice -/

section Twice

variable {s : State} {t : Temps}

theorem pageInfo_of_wf {c : Cfg} (hc : c.wf = true) :
    c.pageInfo.linaddr + 8 ≤ 32 ∧ c.pageInfo.srcpge + 8 ≤ 32 ∧ c.pageInfo.secinfo + 8 ≤ 32 ∧ c.pageInfo.secs + 8 ≤ 32 := by
  obtain ⟨-, -, -, hfields, -⟩ := Cfg.wf_parts hc
  simpa [Cfg.pageInfoOk] using hfields

/-- R26: what lies in one page outside the EPC reads as before. -/
theorem readNat_effectsOn_outside (hc : s.cfg.wf = true) (h3 : Through3 s t) {pa : Qword} (hout : ¬ InEpc s pa) {off n : Nat}
    (hpage : pa.toNat % 4096 + off + n ≤ 4096) :
    (effectsOn s t).mem.readNat (pa.toNat + off) n = s.mem.readNat (pa.toNat + off) n := by
  refine Memory.readNat_congr fun k hk => byte_eaddMem_of_outside hc (operandsOf t) t.paSrc ?_
  have htarget := paTgt_aligned h3
  by_contra hin
  simp only [operandsOf, not_or, Nat.not_lt, Nat.not_le] at hin
  have hepc := inEpc_of_mem_page (paTgt_mem_epc h3) htarget pa.isLt (by omega) (by omega)
  rw [BitVec.ofNat_toNat, BitVec.setWidth_eq] at hepc
  exact hout hepc

/-- PAGEINFO lies in one page, being aligned to its 32 bytes; so it reads as before. -/
theorem pass4_effectsOn (hc : s.cfg.wf = true) (h3 : Through3 s t) (h4 : Pass4 s t) : Pass4 (effectsOn s t) t := by
  obtain ⟨hres, hout, hlin, hsrc, hsi, hsecs⟩ := h4
  have ⟨_, ⟨_, haligned⟩, _⟩ := h3
  obtain ⟨flin, fsrc, fsi, fsecs⟩ := pageInfo_of_wf hc
  have hlow := resolve_low hres
  have hread : ∀ off, off + 8 ≤ 32 →
      (effectsOn s t).mem.readNat (t.paPi.toNat + off) 8 = s.mem.readNat (t.paPi.toNat + off) 8 := fun off hoff =>
    readNat_effectsOn_outside hc h3 hout (by omega)
  exact ⟨hres, hout, hlin.trans (hread _ flin).symm, hsrc.trans (hread _ fsrc).symm, hsi.trans (hread _ fsi).symm,
    hsecs.trans (hread _ fsecs).symm⟩

/-- SECINFO lies in one page, being aligned to its 64 bytes. -/
theorem pass7_effectsOn (hc : s.cfg.wf = true) (h3 : Through3 s t) (h5 : Pass5 s t) (h7 : Pass7 s t) :
    Pass7 (effectsOn s t) t := by
  obtain ⟨hres, hout, hsi⟩ := h7
  obtain ⟨-, -, -, -, -, -, haligned, -⟩ := h5
  have hlow := resolve_low hres
  exact ⟨hres, hout, hsi.trans (readNat_effectsOn_outside hc h3 hout (off := 0) (by omega)).symm⟩

/-- The operands pass again: the effects change nothing that checks 0 to 8 read. -/
theorem through8_effectsOn (hc : s.cfg.wf = true) (h8 : Through8 s t) : Through8 (effectsOn s t) t := by
  obtain ⟨⟨⟨h3, h4, h5⟩, h6, h7⟩, hsi⟩ := h8
  exact ⟨⟨⟨h3, pass4_effectsOn hc h3 h4, h5⟩, h6, pass7_effectsOn hc h3 h5 h7⟩, hsi⟩

end Twice

/-- Settles O52: checks 0 to 9 pass again, and the target is now valid. -/
theorem addingTwiceRaisesPf : Obligations.AddingTwiceRaisesPf := by
  intro s u t hc hpass h
  obtain rfl : effectsOn s t = u := Host.Outcome.next.inj ((exec_encls_effectsOn hc hpass).symm.trans h)
  obtain ⟨⟨h8, h9, -⟩, -⟩ := through12_of_allPass hpass
  have hvalid : ((effectsOn s t).epcmEntry t.paTgt).valid = true := by
    rw [epcmEntry_effectsOn_target, addedEntry]
  exact validTargetRaisesPf _ t (through8_effectsOn hc h8) h9 hvalid

/-! ## What is measured -/

/-- R88 reads the layout and the page types of the configuration only. -/
theorem forcedSecInfo_congr {c c' : Cfg} (hlayout : c.secInfo = c'.secInfo) (htypes : c.pageTypes = c'.pageTypes)
    (si : BitVec 512) : forcedSecInfo c si = forcedSecInfo c' si := by
  rw [forcedSecInfo, forcedSecInfo, hlayout, htypes]

/-- Settles O53: the record after the effects is a function of what the two executions agree in. -/
theorem contentIsNotMeasured : Obligations.ContentIsNotMeasured := by
  intro s s' u u' t t' hc hc' hpass hpass' hlin hsi hsecs hlayout htypes hsha h h'
  obtain rfl : effectsOn s t = u := Host.Outcome.next.inj ((exec_encls_effectsOn hc hpass).symm.trans h)
  obtain rfl : effectsOn s' t' = u' := Host.Outcome.next.inj ((exec_encls_effectsOn hc' hpass').symm.trans h')
  rw [secsRecord?_effectsOn_paSecs, secsRecord?_effectsOn_paSecs, forcedSecInfo_congr hlayout htypes, measuredSecs,
    measuredSecs, hsha, hlin, hsi, hsecs]

/-- Settles O58: one compression each, evaluated. -/
theorem shaUpdateVectors : Obligations.ShaUpdateVectors := by
  refine ⟨?abc, ?m1⟩
  case abc => decide +kernel
  case m1 => decide +kernel

end Sys2Proof.Proofs
end

section
/-! PROOFS. The statements of spec/70_reset_and_hazards.md: a single agent's preconditions suffice, and what stands between two
executions. -/

namespace Sys2Proof.Proofs

open Sys2Proof.Machine Sys2Proof.Safety Sys2Proof.Machine.State

/-! ## No conflicting agent -/

section NoConflict

variable {s : State} {t : Temps}

/-- R54: a leaf that blocks the target holds its page. -/
theorem pass9_of_noConflict (h : NoConflict s t) : Pass9 s t := by
  rw [Pass9, ← Bool.not_eq_true, (busyOnlyAsTheTablesAllow s.input t.paTgt).1]
  rintro ⟨-, o, ho, hold, hmem, hpage, -⟩
  obtain ⟨hholds, -⟩ := h o ho
  exact (hholds hold hmem).1 hpage

/-- R54: a leaf that blocks the SECS holds its page or works on it. -/
theorem pass11_of_noConflict (h : NoConflict s t) : Pass11 s t := by
  rw [Pass11, ← Bool.not_eq_true, (busyOnlyAsTheTablesAllow s.input t.paSecs).2.1]
  rintro ⟨-, o, ho, hblocks⟩
  obtain ⟨hholds, -, hsecs⟩ := h o ho
  rcases hblocks with ⟨hold, hmem, hpage, -⟩ | ⟨-, hworks⟩
  · exact (hholds hold hmem).2 hpage
  · exact hsecs hworks

/-- R54: a leaf that updates the measurement works on the SECS. -/
theorem pass16_of_noConflict (h : NoConflict s t) : Pass16 s t := by
  rw [Pass16, ← Bool.not_eq_true, (busyOnlyAsTheTablesAllow s.input t.paSecs).2.2]
  rintro ⟨-, o, ho, -, -, hworks⟩
  obtain ⟨-, -, hsecs⟩ := h o ho
  exact hsecs hworks

end NoConflict

/-- Settles O39: the three availability checks, 9, 11 and 16, pass without a conflicting agent, and every other check is a
hypothesis. -/
theorem preconditionsSuffice : Obligations.PreconditionsSuffice := by
  intro s t hc h8 h10 h12 h13 h14 h15 h17 hcounter hagents
  have h9 := pass9_of_noConflict hagents
  have h11 := pass11_of_noConflict hagents
  have h16 := pass16_of_noConflict hagents
  have hthrough15 : Through15 s t := ⟨⟨⟨⟨h8, h9, h10⟩, h11, h12⟩, h13⟩, h14, h15⟩
  exact ⟨_, exec_encls_of_allPass hc ⟨hthrough15, h16, h17, hcounter⟩⟩

/-! ## Between two executions -/

/-- R128, one load: the register named holds the value, every other what it held. -/
theorem regOf_set (g : Regs) (q r : Reg) (v : Qword) : regOf (g.set q v) r = if q = r then v else regOf g r := by
  cases q <;> cases r <;> rfl

/-- R128, the loads in order: a register holds the value of the last load of it, or what it held. -/
theorem regOf_load (g : Regs) (loads : List (Reg × Qword)) (r : Reg) :
    regOf (g.load loads) r = ((loads.reverse.find? fun l => l.1 = r).map Prod.snd).getD (regOf g r) := by
  induction loads generalizing g with
  | nil => rfl
  | cons l rest ih =>
    rw [Regs.load, ih, regOf_set, List.reverse_cons, List.find?_append]
    cases rest.reverse.find? fun l => l.1 = r with
    | some last => rfl
    | none => by_cases hl : l.1 = r <;> simp [hl]

/-- Settles O7: the input coming into force, with the registers its loads leave, and one more free value drawn. -/
theorem betweenStepsOnlyInputsChange : Obligations.BetweenStepsOnlyInputsChange := by
  refine fun s => ⟨fun hnone => ?unqueued, fun i rest hqueued => ⟨s.regs.load i.loads, ?queued, regOf_load s.regs i.loads⟩⟩
  case unqueued => rw [betweenSteps, nextInput_nil hnone, drawn]
  case queued => rw [betweenSteps, nextInput_cons hqueued, drawn]

end Sys2Proof.Proofs
end

section
/-! PROOFS. A step that goes on keeps memory, EPCM, SECS records and program text in canonical form: each operation of the effects
keeps it, and the next input coming into force touches no list. -/

namespace Sys2Proof.Proofs

open Sys2Proof.Machine Sys2Proof.Safety Sys2Proof.Machine.State

/-! ## The operations of the effects -/

section Canonical

variable {s : State}

theorem listsCanonical_setMem {m : Memory} (hi : ListsCanonical s) (hm : m.wf = true) : ListsCanonical (s.setMem m) := by
  obtain ⟨-, hlists⟩ := hi
  exact ⟨hm, hlists⟩

theorem listsCanonical_setSecs (hi : ListsCanonical s) (pa : Qword) (r : Secs) : ListsCanonical (s.setSecs pa r) := by
  obtain ⟨hmem, hepcm, hlisted, hsecs, htext⟩ := hi
  exact ⟨hmem, hepcm, hlisted, keysRising_put hsecs _ _, htext⟩

/-- The empty entry is removed, any other is put: either way no empty entry is listed. -/
theorem listsCanonical_setEpcm (hi : ListsCanonical s) (pa : Qword) (e : EpcmEntry) : ListsCanonical (s.setEpcm pa e) := by
  obtain ⟨hmem, hepcm, hlisted, hsecs, htext⟩ := hi
  suffices h : keysRising (s.setEpcm pa e).epcm = true ∧ ∀ c ∈ (s.setEpcm pa e).epcm, c.2 ≠ .empty from
    ⟨hmem, h.1, h.2, hsecs, htext⟩
  rw [setEpcm_epcm]
  split
  case isTrue =>
    refine ⟨keysRising_remove hepcm _, fun c hc => ?_⟩
    rcases mem_splice hc with hnew | hold
    · exact absurd hnew List.not_mem_nil
    · exact hlisted c hold
  case isFalse hne =>
    refine ⟨keysRising_put hepcm _ _, fun c hc => ?_⟩
    rcases mem_splice hc with hnew | hold
    · exact List.mem_singleton.mp hnew ▸ hne
    · exact hlisted c hold

theorem listsCanonical_advanceRip (hi : ListsCanonical s) : ListsCanonical s.advanceRip := hi

theorem listsCanonical_setFlags (hi : ListsCanonical s) (flags : Qword) : ListsCanonical { s with rflags := flags } := hi

/-- The effects are the three writes; RIP and the flags are no lists. -/
theorem listsCanonical_eaddEffects (hi : ListsCanonical s) (o : EaddOperands) (r : Secs) (paSrc : Qword) :
    ListsCanonical (eaddEffects s o r paSrc) :=
  have hmem := listsCanonical_setMem hi (eaddMem_wf hi.1 o paSrc)
  listsCanonical_setFlags (listsCanonical_advanceRip (listsCanonical_setEpcm (listsCanonical_setSecs hmem _ _) _ _)) _

end Canonical

/-! ## The step -/

theorem listsCanonical_betweenSteps (s : State) : ListsCanonical s.betweenSteps ↔ ListsCanonical s := by
  simp [ListsCanonical]

/-- Settles O45: a step that goes on is the effects, whatever the configuration, and then the next input. -/
theorem stepKeepsListsCanonical : Obligations.StepKeepsListsCanonical := by
  intro s u hi h
  obtain ⟨v, hv, rfl⟩ := step_next h
  obtain ⟨o, r, paSrc, -, -, -, -, rfl⟩ := exec_encls_next_stages hv
  exact (listsCanonical_betweenSteps _).mpr (listsCanonical_eaddEffects hi o r paSrc)

end Sys2Proof.Proofs
end
